-- ==== Sys2Proof/Word.lean ====
section
/-! DEFINITION. The word types of the machine (spec 00_scope.md R6, R8): every value is unsigned. -/

namespace Sys2Proof

/-- An 8-bit register, a byte of memory, an immediate `kk` (R6, R54). -/
abbrev Byte := BitVec 8

/-- An instruction word, the pc, the index register, a stack entry (R6, R17, R19, R22). -/
abbrev Word := BitVec 16

/-- A 12-bit address operand `nnn` (R55). -/
abbrev Addr := BitVec 12

/-- A 4-bit field: the family `f`, the selector or height `n` (R50, R53). -/
abbrev Nibble := BitVec 4

/-- A 4-bit register index `x` or `y`: every value names a register (R15, R51, R52). -/
abbrev RegIdx := BitVec 4

/-- The value of the pressed-key register, 0..15 (R24). -/
abbrev Key := BitVec 4

end Sys2Proof
end

