-- ==== Sys2Proof/Syntax.lean ====
section
/-! DEFINITION. The decoded instruction, a tagged value with the operands of spec 30_encoding.md R57. -/

namespace Sys2Proof

/-- The constructors of R57, in the order of its ordinals (`#`). -/
inductive Instr where
  /-- 0: `SYS nnn`, 0nnn, a no-op (R78). -/
  | sys (nnn : Addr)
  /-- 1: `CLS`, 00E0 (R120). -/
  | cls
  /-- 2: `RET`, 00EE (R79). -/
  | ret
  /-- 3: `JP nnn`, 1nnn (R80). -/
  | jp (nnn : Addr)
  /-- 4: `CALL nnn`, 2nnn (R81). -/
  | call (nnn : Addr)
  /-- 5: `SE Vx, kk`, 3xkk (R84). -/
  | seImm (x : RegIdx) (kk : Byte)
  /-- 6: `SNE Vx, kk`, 4xkk (R85). -/
  | sneImm (x : RegIdx) (kk : Byte)
  /-- 7: `SE Vx, Vy`, 5xy0 (R86). -/
  | seReg (x y : RegIdx)
  /-- 8: `LD Vx, kk`, 6xkk (R92). -/
  | ldImm (x : RegIdx) (kk : Byte)
  /-- 9: `ADD Vx, kk`, 7xkk (R93). -/
  | addImm (x : RegIdx) (kk : Byte)
  /-- 10: `LD Vx, Vy`, 8xy0 (R94). -/
  | mov (x y : RegIdx)
  /-- 11: `OR Vx, Vy`, 8xy1 (R95). -/
  | or (x y : RegIdx)
  /-- 12: `AND Vx, Vy`, 8xy2 (R96). -/
  | and (x y : RegIdx)
  /-- 13: `XOR Vx, Vy`, 8xy3 (R97). -/
  | xor (x y : RegIdx)
  /-- 14: `ADD Vx, Vy`, 8xy4 (R98). -/
  | addReg (x y : RegIdx)
  /-- 15: `SUB Vx, Vy`, 8xy5 (R99). -/
  | sub (x y : RegIdx)
  /-- 16: `SHR Vx, Vy`, 8xy6 (R100). -/
  | shr (x y : RegIdx)
  /-- 17: `SUBN Vx, Vy`, 8xy7 (R101). -/
  | subn (x y : RegIdx)
  /-- 18: `SHL Vx, Vy`, 8xyE (R102). -/
  | shl (x y : RegIdx)
  /-- 19: `SNE Vx, Vy`, 9xy0 (R87). -/
  | sneReg (x y : RegIdx)
  /-- 20: `LD I, nnn`, Annn (R105). -/
  | ldI (nnn : Addr)
  /-- 21: `JP V0, nnn`, Bnnn (R82). -/
  | jpV0 (nnn : Addr)
  /-- 22: `RND Vx, kk`, Cxkk (R103). -/
  | rnd (x : RegIdx) (kk : Byte)
  /-- 23: `DRW Vx, Vy, n`, Dxyn (R119). -/
  | drw (x y : RegIdx) (n : Nibble)
  /-- 24: `SKP Vx`, Ex9E (R123). -/
  | skp (x : RegIdx)
  /-- 25: `SKNP Vx`, ExA1 (R124). -/
  | sknp (x : RegIdx)
  /-- 26: `LD Vx, DT`, Fx07 (R125). -/
  | ldVxDt (x : RegIdx)
  /-- 27: `LD Vx, K`, Fx0A (R126). -/
  | ldVxK (x : RegIdx)
  /-- 28: `LD DT, Vx`, Fx15 (R127). -/
  | ldDtVx (x : RegIdx)
  /-- 29: `LD ST, Vx`, Fx18 (R128). -/
  | ldStVx (x : RegIdx)
  /-- 30: `ADD I, Vx`, Fx1E (R106). -/
  | addI (x : RegIdx)
  /-- 31: `LD F, Vx`, Fx29 (R107). -/
  | ldF (x : RegIdx)
  /-- 32: `LD B, Vx`, Fx33 (R108). -/
  | ldB (x : RegIdx)
  /-- 33: `LD [I], Vx`, Fx55 (R109). -/
  | ldMemStore (x : RegIdx)
  /-- 34: `LD Vx, [I]`, Fx65 (R110). -/
  | ldMemLoad (x : RegIdx)
  /-- 35: a word of the unknown set, kept whole (R62, R75). -/
  | unknown (w : Word)
  deriving DecidableEq, Repr

end Sys2Proof
end

