-- ==== Sys2Proof/Decode.lean ====
section
/-! DEFINITION. The instruction decoder and its inverse: fields and formats (spec 30_encoding.md R50 to
R56), the decode function (40_decoder_and_tick.md R66), the unknown set (R62), the opcode map (R59), the
decoder's output bus (R58), the encoder (R68), the assembler text (R64), and decoding from bytes. -/

namespace Sys2Proof

/-! ### Fields of an instruction word (R50 to R55) -/

/-- `f = w[15:12]` (R50). -/
def fieldF (w : Word) : Nibble := w.extractLsb' 12 4

/-- `x = w[11:8]` (R51). -/
def fieldX (w : Word) : RegIdx := w.extractLsb' 8 4

/-- `y = w[7:4]` (R52). -/
def fieldY (w : Word) : RegIdx := w.extractLsb' 4 4

/-- `n = w[3:0]` (R53). -/
def fieldN (w : Word) : Nibble := w.extractLsb' 0 4

/-- `kk = w[7:0]` (R54). -/
def fieldKK (w : Word) : Byte := w.extractLsb' 0 8

/-- `nnn = w[11:0]` (R55). -/
def fieldNNN (w : Word) : Addr := w.extractLsb' 0 12

/-! ### The decode function (R66) -/

/-- Family 8, selected by the low nibble (R66). -/
def decodeFamily8 (w : Word) : Instr :=
  match fieldN w with
  | 0x0#4 => .mov (fieldX w) (fieldY w)
  | 0x1#4 => .or (fieldX w) (fieldY w)
  | 0x2#4 => .and (fieldX w) (fieldY w)
  | 0x3#4 => .xor (fieldX w) (fieldY w)
  | 0x4#4 => .addReg (fieldX w) (fieldY w)
  | 0x5#4 => .sub (fieldX w) (fieldY w)
  | 0x6#4 => .shr (fieldX w) (fieldY w)
  | 0x7#4 => .subn (fieldX w) (fieldY w)
  | 0xE#4 => .shl (fieldX w) (fieldY w)
  | _ => .unknown w

/-- Family E, selected by the second byte (R66). -/
def decodeFamilyE (w : Word) : Instr :=
  match fieldKK w with
  | 0x9E#8 => .skp (fieldX w)
  | 0xA1#8 => .sknp (fieldX w)
  | _ => .unknown w

/-- Family F, selected by the second byte (R66; the byte values are decision D7, log 15). -/
def decodeFamilyF (w : Word) : Instr :=
  match fieldKK w with
  | 0x07#8 => .ldVxDt (fieldX w)
  | 0x0A#8 => .ldVxK (fieldX w)
  | 0x15#8 => .ldDtVx (fieldX w)
  | 0x18#8 => .ldStVx (fieldX w)
  | 0x1E#8 => .addI (fieldX w)
  | 0x29#8 => .ldF (fieldX w)
  | 0x33#8 => .ldB (fieldX w)
  | 0x55#8 => .ldMemStore (fieldX w)
  | 0x65#8 => .ldMemLoad (fieldX w)
  | _ => .unknown w

/-- `decode(w)` (R66): total, one result for each of the 65536 words (R67). In family 0 the full words
00E0 and 00EE come before `sys` (R61, 90_conflicts.md C1). -/
def decode (w : Word) : Instr :=
  match fieldF w with
  | 0x0#4 => if w = 0x00E0#16 then .cls else if w = 0x00EE#16 then .ret else .sys (fieldNNN w)
  | 0x1#4 => .jp (fieldNNN w)
  | 0x2#4 => .call (fieldNNN w)
  | 0x3#4 => .seImm (fieldX w) (fieldKK w)
  | 0x4#4 => .sneImm (fieldX w) (fieldKK w)
  | 0x5#4 => if fieldN w = 0 then .seReg (fieldX w) (fieldY w) else .unknown w
  | 0x6#4 => .ldImm (fieldX w) (fieldKK w)
  | 0x7#4 => .addImm (fieldX w) (fieldKK w)
  | 0x8#4 => decodeFamily8 w
  | 0x9#4 => if fieldN w = 0 then .sneReg (fieldX w) (fieldY w) else .unknown w
  | 0xA#4 => .ldI (fieldNNN w)
  | 0xB#4 => .jpV0 (fieldNNN w)
  | 0xC#4 => .rnd (fieldX w) (fieldKK w)
  | 0xD#4 => .drw (fieldX w) (fieldY w) (fieldN w)
  | 0xE#4 => decodeFamilyE w
  | _ => decodeFamilyF w -- 0xF, the one value left

/-! ### The unknown set (R62) -/

/-- The unknown set, written from R62's table and not from `decode`. -/
def inUnknownSet (w : Word) : Bool :=
  (fieldF w == 0x5#4 && fieldN w != 0x0#4) ||
  (fieldF w == 0x8#4 && [0x8#4, 0x9#4, 0xA#4, 0xB#4, 0xC#4, 0xD#4, 0xF#4].contains (fieldN w)) ||
  (fieldF w == 0x9#4 && fieldN w != 0x0#4) ||
  (fieldF w == 0xE#4 && !([0x9E#8, 0xA1#8].contains (fieldKK w))) ||
  (fieldF w == 0xF#4 &&
    !([0x07#8, 0x0A#8, 0x15#8, 0x18#8, 0x1E#8, 0x29#8, 0x33#8, 0x55#8, 0x65#8].contains (fieldKK w)))

/-! ### The formats (R56) and the encoder (R68) -/

/-- Format NNN: `f ++ nnn`. -/
def wordNNN (f : Nibble) (nnn : Addr) : Word := f ++ nnn

/-- Format XKK (and XSUB, with the sub-code as `kk`): `f ++ x ++ kk`. -/
def wordXKK (f : Nibble) (x : RegIdx) (kk : Byte) : Word := f ++ x ++ kk

/-- Format XYN: `f ++ x ++ y ++ n`. -/
def wordXYN (f : Nibble) (x y : RegIdx) (n : Nibble) : Word := f ++ x ++ y ++ n

/-- `encode(i)` (R68): the operands in the fields of the row of R59, the fixed bits from its match. -/
def encode : Instr → Word
  | .sys nnn => wordNNN 0x0 nnn
  | .cls => 0x00E0
  | .ret => 0x00EE
  | .jp nnn => wordNNN 0x1 nnn
  | .call nnn => wordNNN 0x2 nnn
  | .seImm x kk => wordXKK 0x3 x kk
  | .sneImm x kk => wordXKK 0x4 x kk
  | .seReg x y => wordXYN 0x5 x y 0x0
  | .ldImm x kk => wordXKK 0x6 x kk
  | .addImm x kk => wordXKK 0x7 x kk
  | .mov x y => wordXYN 0x8 x y 0x0
  | .or x y => wordXYN 0x8 x y 0x1
  | .and x y => wordXYN 0x8 x y 0x2
  | .xor x y => wordXYN 0x8 x y 0x3
  | .addReg x y => wordXYN 0x8 x y 0x4
  | .sub x y => wordXYN 0x8 x y 0x5
  | .shr x y => wordXYN 0x8 x y 0x6
  | .subn x y => wordXYN 0x8 x y 0x7
  | .shl x y => wordXYN 0x8 x y 0xE
  | .sneReg x y => wordXYN 0x9 x y 0x0
  | .ldI nnn => wordNNN 0xA nnn
  | .jpV0 nnn => wordNNN 0xB nnn
  | .rnd x kk => wordXKK 0xC x kk
  | .drw x y n => wordXYN 0xD x y n
  | .skp x => wordXKK 0xE x 0x9E
  | .sknp x => wordXKK 0xE x 0xA1
  | .ldVxDt x => wordXKK 0xF x 0x07
  | .ldVxK x => wordXKK 0xF x 0x0A
  | .ldDtVx x => wordXKK 0xF x 0x15
  | .ldStVx x => wordXKK 0xF x 0x18
  | .addI x => wordXKK 0xF x 0x1E
  | .ldF x => wordXKK 0xF x 0x29
  | .ldB x => wordXKK 0xF x 0x33
  | .ldMemStore x => wordXKK 0xF x 0x55
  | .ldMemLoad x => wordXKK 0xF x 0x65
  | .unknown w => w

/-! ### The opcode map and the output bus -/

/-- The `mask` and `match` columns of the opcode map (R59). `unknown(w)` has no row of its own there:
its whole word is fixed. -/
def opcodeRow : Instr → Word × Word
  | .sys _ => (0xF000, 0x0000)
  | .cls => (0xFFFF, 0x00E0)
  | .ret => (0xFFFF, 0x00EE)
  | .jp _ => (0xF000, 0x1000)
  | .call _ => (0xF000, 0x2000)
  | .seImm _ _ => (0xF000, 0x3000)
  | .sneImm _ _ => (0xF000, 0x4000)
  | .seReg _ _ => (0xF00F, 0x5000)
  | .ldImm _ _ => (0xF000, 0x6000)
  | .addImm _ _ => (0xF000, 0x7000)
  | .mov _ _ => (0xF00F, 0x8000)
  | .or _ _ => (0xF00F, 0x8001)
  | .and _ _ => (0xF00F, 0x8002)
  | .xor _ _ => (0xF00F, 0x8003)
  | .addReg _ _ => (0xF00F, 0x8004)
  | .sub _ _ => (0xF00F, 0x8005)
  | .shr _ _ => (0xF00F, 0x8006)
  | .subn _ _ => (0xF00F, 0x8007)
  | .shl _ _ => (0xF00F, 0x800E)
  | .sneReg _ _ => (0xF00F, 0x9000)
  | .ldI _ => (0xF000, 0xA000)
  | .jpV0 _ => (0xF000, 0xB000)
  | .rnd _ _ => (0xF000, 0xC000)
  | .drw _ _ _ => (0xF000, 0xD000)
  | .skp _ => (0xF0FF, 0xE09E)
  | .sknp _ => (0xF0FF, 0xE0A1)
  | .ldVxDt _ => (0xF0FF, 0xF007)
  | .ldVxK _ => (0xF0FF, 0xF00A)
  | .ldDtVx _ => (0xF0FF, 0xF015)
  | .ldStVx _ => (0xF0FF, 0xF018)
  | .addI _ => (0xF0FF, 0xF01E)
  | .ldF _ => (0xF0FF, 0xF029)
  | .ldB _ => (0xF0FF, 0xF033)
  | .ldMemStore _ => (0xF0FF, 0xF055)
  | .ldMemLoad _ => (0xF0FF, 0xF065)
  | .unknown w => (0xFFFF, w)

/-- `tag[5:0]`, the ordinal in the `#` column of R57 (R58, decision D29, log 30). -/
def tag : Instr → BitVec 6
  | .sys _ => 0
  | .cls => 1
  | .ret => 2
  | .jp _ => 3
  | .call _ => 4
  | .seImm _ _ => 5
  | .sneImm _ _ => 6
  | .seReg _ _ => 7
  | .ldImm _ _ => 8
  | .addImm _ _ => 9
  | .mov _ _ => 10
  | .or _ _ => 11
  | .and _ _ => 12
  | .xor _ _ => 13
  | .addReg _ _ => 14
  | .sub _ _ => 15
  | .shr _ _ => 16
  | .subn _ _ => 17
  | .shl _ _ => 18
  | .sneReg _ _ => 19
  | .ldI _ => 20
  | .jpV0 _ => 21
  | .rnd _ _ => 22
  | .drw _ _ _ => 23
  | .skp _ => 24
  | .sknp _ => 25
  | .ldVxDt _ => 26
  | .ldVxK _ => 27
  | .ldDtVx _ => 28
  | .ldStVx _ => 29
  | .addI _ => 30
  | .ldF _ => 31
  | .ldB _ => 32
  | .ldMemStore _ => 33
  | .ldMemLoad _ => 34
  | .unknown _ => 35

/-- The decoder's output bus: `tag[5:0]` and `raw[15:0]` (R58, R65). -/
def decoderBus (w : Word) : BitVec 6 × Word := (tag (decode w), w)

/-! ### Assembler syntax (R64) -/

/-- One hexadecimal digit. -/
def hexDigit (n : Nibble) : Char := "0123456789ABCDEF".toList.getD n.toNat '0'

/-- A register name, `V0` to `VF` (R64). -/
def asmReg (x : RegIdx) : String := String.ofList ['V', hexDigit x]

/-- A number of `k` hexadecimal digits with `0x` (R64; that every number has the digits of its field, and that
`n` has the `0x` too, is log 43). -/
def asmHex (k w : Nat) : String :=
  String.ofList ('0' :: 'x' :: (List.range k).map (fun j => hexDigit (BitVec.ofNat 4 (w / 16 ^ (k - 1 - j)))))

/-- An instruction with its operands, separated by commas. -/
def asmLine (name : String) (operands : List String) : String :=
  name ++ " " ++ String.intercalate ", " operands

/-- The text of an instruction (R64, decision D32). -/
def asm : Instr → String
  | .sys nnn => asmLine "SYS" [asmHex 3 nnn.toNat]
  | .cls => "CLS"
  | .ret => "RET"
  | .jp nnn => asmLine "JP" [asmHex 3 nnn.toNat]
  | .call nnn => asmLine "CALL" [asmHex 3 nnn.toNat]
  | .seImm x kk => asmLine "SE" [asmReg x, asmHex 2 kk.toNat]
  | .sneImm x kk => asmLine "SNE" [asmReg x, asmHex 2 kk.toNat]
  | .seReg x y => asmLine "SE" [asmReg x, asmReg y]
  | .ldImm x kk => asmLine "LD" [asmReg x, asmHex 2 kk.toNat]
  | .addImm x kk => asmLine "ADD" [asmReg x, asmHex 2 kk.toNat]
  | .mov x y => asmLine "LD" [asmReg x, asmReg y]
  | .or x y => asmLine "OR" [asmReg x, asmReg y]
  | .and x y => asmLine "AND" [asmReg x, asmReg y]
  | .xor x y => asmLine "XOR" [asmReg x, asmReg y]
  | .addReg x y => asmLine "ADD" [asmReg x, asmReg y]
  | .sub x y => asmLine "SUB" [asmReg x, asmReg y]
  | .shr x y => asmLine "SHR" [asmReg x, asmReg y]
  | .subn x y => asmLine "SUBN" [asmReg x, asmReg y]
  | .shl x y => asmLine "SHL" [asmReg x, asmReg y]
  | .sneReg x y => asmLine "SNE" [asmReg x, asmReg y]
  | .ldI nnn => asmLine "LD" ["I", asmHex 3 nnn.toNat]
  | .jpV0 nnn => asmLine "JP" ["V0", asmHex 3 nnn.toNat]
  | .rnd x kk => asmLine "RND" [asmReg x, asmHex 2 kk.toNat]
  | .drw x y n => asmLine "DRW" [asmReg x, asmReg y, asmHex 1 n.toNat]
  | .skp x => asmLine "SKP" [asmReg x]
  | .sknp x => asmLine "SKNP" [asmReg x]
  | .ldVxDt x => asmLine "LD" [asmReg x, "DT"]
  | .ldVxK x => asmLine "LD" [asmReg x, "K"]
  | .ldDtVx x => asmLine "LD" ["DT", asmReg x]
  | .ldStVx x => asmLine "LD" ["ST", asmReg x]
  | .addI x => asmLine "ADD" ["I", asmReg x]
  | .ldF x => asmLine "LD" ["F", asmReg x]
  | .ldB x => asmLine "LD" ["B", asmReg x]
  | .ldMemStore x => asmLine "LD" ["[I]", asmReg x]
  | .ldMemLoad x => asmLine "LD" [asmReg x, "[I]"]
  | .unknown w => asmLine ".word" [asmHex 4 w.toNat]

/-! ### Bytes -/

/-- The word of two bytes in big-endian order (R34). -/
def wordOfBytes (hi lo : Byte) : Word := hi ++ lo

/-- The first byte of a word in memory order, `w[15:8]` (R34). -/
def highByte (w : Word) : Byte := w.extractLsb' 8 8

/-- The second byte of a word in memory order, `w[7:0]` (R34). -/
def lowByte (w : Word) : Byte := w.extractLsb' 0 8

/-- Why bytes are not decoded. No word is rejected (R67): only too few bytes are. -/
inductive DecodeError where
  /-- Fewer than the two bytes every instruction has (R49); log 40. Safe: nothing is decoded. -/
  | tooFewBytes
  deriving DecidableEq, Repr

/-- Decode the instruction at the head of a list of bytes; a decoder always consumes two (R49, R65). -/
def decodeBytes : List Byte → Except DecodeError (Instr × List Byte)
  | hi :: lo :: rest => .ok (decode (wordOfBytes hi lo), rest)
  | _ => .error .tooFewBytes

/-- The bytes of an instruction as the hardware stores them (R34, R68). -/
def encodeBytes (i : Instr) : List Byte := [highByte (encode i), lowByte (encode i)]

/-- A table row's word: the low `nbits` bits of `w`, at most the one word an instruction has (R49). -/
def tableWord (nbits w : Nat) : Word := BitVec.ofNat 16 (w % 2 ^ nbits)

/-- What the decoder reads from the bytes of a word numbered as the opcode table numbers it. -/
def decodeTableWord (nbits w : Nat) : Option Instr :=
  match decodeBytes [highByte (tableWord nbits w), lowByte (tableWord nbits w)] with
  | .ok (i, _) => some i
  | .error _ => none

end Sys2Proof
end

