-- ==== Sys2Proof/Config.lean ====
section
/-! DEFINITION. The parameters of spec 00_scope.md R7. The three for which R7 gives a default are plain
data (`Params`), carried by the state so that every claim about every state is a claim about every
value of them; the function parameters it leaves OPEN are constants without a body, of which no proof
can see a value. -/

namespace Sys2Proof

/-- SHR_MODE, the "decoded variant" of shift-right (R7, R100, decision D11). -/
inductive ShrMode where
  /-- `V[x] >> 1`, the spec's default. -/
  | vxByOne
  /-- `V[y] >> 1`. -/
  | vyByOne
  /-- `V[x] >> V[y]`. -/
  | vxByVy
  deriving DecidableEq, Repr

/-- The parameters for which R7 states a default. No step and no host call changes them. -/
structure Params where
  /-- STACK_CAPACITY, at least 1 (R7, R22, decision D4). -/
  stackCapacity : Nat
  /-- SHR_MODE (R7, R100, decision D11). -/
  shrMode : ShrMode
  /-- SUB_EQ_FLAG, what 8xy5 and 8xy7 write to VF on equal operands (R7, R99, R101, decision D12). -/
  subEqFlag : BitVec 1
  deriving DecidableEq, Repr

/-- The defaults of R7: capacity 16, `vx_by_one`, 0. -/
def Params.default : Params := { stackCapacity := 16, shrMode := .vxByOne, subEqFlag := 0 }

/-- The type S of the generator's state (R7, R25): DESIGN CHOICE, the natural numbers (log 4). -/
abbrev Rng := Nat

/-- The type of the seed given to `create` (R7): DESIGN CHOICE, the natural numbers (log 4). -/
abbrev Seed := Nat

/-- `rng_init` (R7, R25, R146): open. -/
opaque Config.rngInit : Seed → Rng

/-- `rng_next` (R7, R25, R103): open; the byte drawn and the generator's next state. -/
opaque Config.rngNext : Rng → Byte × Rng

/-- The seed the machine was created with (R146): open. -/
opaque Config.seed : Seed

/-- GLYPH_ADDR (R7, R107): open; defined for all 256 values. -/
opaque Config.glyphAddr : Byte → Word

/-- RESERVED_IMAGE (R7, R41, R146): open; the 512 bytes of 0x000..0x1FF after `create`. -/
opaque Config.reservedImage : Fin 512 → Byte

end Sys2Proof
end

