-- ==== Sys2Proof/Machine/State.lean ====
section
/-! DEFINITION. The machine's state as plain data (spec 10_state.md), the reasons a step stops
(60_exceptions.md R129), and the state right after reset (R30, 70_reset_and_hazards.md R146). -/

namespace Sys2Proof.Machine

/-- Main memory (R26): the bytes that differ from what `create` leaves there, as (address, byte) pairs
at strictly rising addresses (`Memory.wf` in Ops.lean). -/
abbrev Memory := List Host.Cell

/-- The framebuffer: 32 rows of 8 bytes; byte column `b` of row `r` is at `r * 8 + b` (R27). -/
abbrev Framebuffer := Vector Byte 256

/-- `MachineState`, "the sole mutable entity" (10_state.md). -/
structure State where
  /-- The general registers V0..VF; VF is index 15 (R15, R16). -/
  v : Vector Byte 16
  /-- The index register (R19). -/
  i : Word
  /-- The program counter (R17). -/
  pc : Word
  /-- The delay timer (R21). -/
  dt : Byte
  /-- The sound timer (R21). -/
  st : Byte
  /-- The call stack, its top first (R22). -/
  stack : List Word
  /-- The pressed-key state (R24). -/
  key : Option Key
  /-- The state of the generator (R25). -/
  rng : Rng
  /-- The framebuffer (R27). -/
  fb : Framebuffer
  /-- Main memory (R26). -/
  mem : Memory
  /-- The model's own field: the parameters of R7 that have a default. Nothing changes them (log 39). -/
  params : Params
  deriving DecidableEq, Repr

/-- The failures of a tick: the type `Error` of R129. A failing tick leaves the state as it was (R71). -/
inductive Fault where
  /-- Code 1. Raised by fetch (an odd pc, or pc > 0xFFE: `addr` is the pc), and by `drw`, `ld_b`,
  `ld_mem_store` and `ld_mem_load` (a range not inside memory: `addr` is the lowest address of it outside).
  The spec's own failure (R70, R35); safe, since nothing is done. -/
  | memoryOutOfBounds (addr : Nat)
  /-- Code 2. Raised by `call` when the stack is full (R81). The spec's own failure; safe. -/
  | stackOverflow
  /-- Code 3. Raised by `ret` when the stack is empty (R79). The spec's own failure; safe. -/
  | stackUnderflow
  /-- Code 4. Named by the taxonomy and raised by no rule: unreachable (R76, log 34). Safe. -/
  | invalidRegisterIndex
  deriving DecidableEq, Repr

/-- Reasons to give a call no step. No instruction of the table is refused. -/
inductive Refusal where
  /-- An instruction without a meaning in this model, raised by an arm of `exec`; safe. No arm raises it. -/
  | notModelled (mnemonic : String)
  /-- Raised by the host call `create` for an image of more than 3584 bytes: a precondition the host
  must meet (R146, decision D17, log 32). Safe: the model has no run for it. -/
  | imageTooLong
  /-- Raised by the host call `set_key_pressed` for a value above 15: a precondition the host must meet
  (R138, decision D33, log 32). Safe: the model has no run for it. -/
  | keyOutOfRange
  deriving DecidableEq, Repr

/-- The state after `create` of the empty image (R30, R146). The pc is the source's 0x200; the other
values are the spec's decision D19 (log 7), the generator's is `rng_init(seed)` (log 4), memory holds what
`create` puts there (nothing is listed, log 6 and 8), the parameters have the defaults of R7 (log 1 to 3). -/
def State.reset : State :=
  { v := Vector.replicate 16 0
    i := 0
    pc := 0x200
    dt := 0
    st := 0
    stack := []
    key := none
    rng := Config.rngInit Config.seed
    fb := Vector.replicate 256 0
    mem := []
    params := Params.default }

end Sys2Proof.Machine
end

