-- ==== Sys2Proof/Machine/Ops.lean ====
section
/-! DEFINITION. The named operations over registers and memory: what every meaning is written in.
Registers and parameters (spec 10_state.md), memory and its bounds (20_memory.md), the ways a tick
ends (40_decoder_and_tick.md R71, R74; 60_exceptions.md R129, R130). -/

namespace Sys2Proof.Machine

/-- What executing an instruction answers: a next state, a failure, or no step at all. -/
abbrev Result := Host.Outcome State Fault Refusal

/-! ### Registers -/

/-- `V[x]` (R10, R15). -/
def State.reg (s : State) (x : RegIdx) : Byte := s.v[x.toNat]'x.isLt

/-- `V[x] <- b` (R10, R15). -/
def State.setReg (s : State) (x : RegIdx) (b : Byte) : State :=
  { s with v := s.v.set x.toNat b x.isLt }

/-- Register 15 (R16). -/
def vf : RegIdx := 15

/-- A flag is written to VF as the byte 1 or 0 (R16, R98). -/
def State.setFlag (s : State) (flag : BitVec 1) : State := s.setReg vf (flag.zeroExtend 8)

/-- `I <- w` (R19). -/
def State.setI (s : State) (w : Word) : State := { s with i := w }

/-- `pc <- w` (R17). -/
def State.setPc (s : State) (w : Word) : State := { s with pc := w }

/-- `DT <- b` (R21). -/
def State.setDt (s : State) (b : Byte) : State := { s with dt := b }

/-- `ST <- b` (R21). -/
def State.setSt (s : State) (b : Byte) : State := { s with st := b }

/-- The call stack is replaced (R22). -/
def State.setStack (s : State) (st : List Word) : State := { s with stack := st }

/-- `key` is replaced: by the host only (R24). -/
def State.setKey (s : State) (k : Option Key) : State := { s with key := k }

/-- `rng <- r` (R25). -/
def State.setRng (s : State) (r : Rng) : State := { s with rng := r }

/-- The framebuffer is replaced (R27). -/
def State.setFb (s : State) (fb : Framebuffer) : State := { s with fb := fb }

/-- Main memory is replaced (R26). -/
def State.setMem (s : State) (m : Memory) : State := { s with mem := m }

/-! ### Parameters (00_scope.md R7) -/

/-- STACK_CAPACITY. -/
def State.stackCapacity (s : State) : Nat := s.params.stackCapacity

/-- SHR_MODE. -/
def State.shrMode (s : State) : ShrMode := s.params.shrMode

/-- SUB_EQ_FLAG. -/
def State.subEqFlag (s : State) : BitVec 1 := s.params.subEqFlag

/-- `rng_next` (R25). -/
def rngNext (r : Rng) : Byte × Rng := Config.rngNext r

/-- `rng_init` (R25). -/
def rngInit (seed : Seed) : Rng := Config.rngInit seed

/-- GLYPH_ADDR (R107). -/
def glyphAddr (b : Byte) : Word := Config.glyphAddr b

/-! ### Memory, byte by byte (20_memory.md R32, R41) -/

/-- MEM_SIZE (R6): addresses 0x000..0xFFF. -/
def memSize : Nat := 0x1000

/-- What an address that the memory list does not name reads as: what `create` leaves there.
RESERVED_IMAGE below 0x200 (log 6), 0 above (log 8), R146. -/
def unlistedByte (a : Nat) : Byte :=
  if h : a < 512 then Config.reservedImage ⟨a, h⟩ else 0

/-- `mem[a]`. -/
def Memory.read : Memory → Nat → Byte
  | [], a => unlistedByte a
  | (b, u) :: rest, a => if a = b then u else Memory.read rest a

/-- The entry for `a` at the head of a list of higher addresses: none for what `a` reads as unlisted. -/
def Memory.cons (a : Nat) (v : Byte) (rest : Memory) : Memory :=
  if v = unlistedByte a then rest else (a, v) :: rest

/-- `mem[a] <- v`, keeping the canonical form. -/
def Memory.write : Memory → Nat → Byte → Memory
  | [], a, v => Memory.cons a v []
  | (b, u) :: rest, a, v =>
    if a < b then Memory.cons a v ((b, u) :: rest)
    else if a = b then Memory.cons a v rest
    else (b, u) :: Memory.write rest a v

/-- The canonical form: addresses of memory only, strictly rising, no entry equal to what an unlisted
address reads as. -/
abbrev Memory.wf (m : Memory) : Prop :=
  m.Pairwise (fun p q => p.1 < q.1) ∧ ∀ p ∈ m, p.1 < memSize ∧ p.2 ≠ unlistedByte p.1

/-- `mem[a]` of a state. -/
def State.byte (s : State) (a : Nat) : Byte := Memory.read s.mem a

/-! ### Ranges (R35 to R38) -/

/-- R35: an access of `n` bytes at `a` is legal iff it lies wholly inside memory; with `n = 0` always. -/
abbrev rangeLegal (a n : Nat) : Prop := n = 0 ∨ a + n - 1 ≤ 0xFFF

/-- R35: the failure of an illegal data access names the lowest address of the range outside memory. -/
def outOfBounds (a : Nat) : Fault := .memoryOutOfBounds (max a 0x1000)

/-- The bytes at `a .. a+n-1`, lowest address first. -/
def Memory.readList (m : Memory) (a n : Nat) : List Byte :=
  (List.range n).map (fun k => Memory.read m (a + k))

/-- The bytes of a list written at `a`, `a+1`, and so on. -/
def Memory.writeList : Memory → Nat → List Byte → Memory
  | m, _, [] => m
  | m, a, v :: vs => Memory.writeList (Memory.write m a v) (a + 1) vs

/-- `MemRead(a, n)` (R36). -/
def memRead (m : Memory) (a n : Nat) : Except Fault (List Byte) :=
  if rangeLegal a n then .ok (Memory.readList m a n) else .error (outOfBounds a)

/-- `MemWrite(a, n, v)` with `n` the length of `v` (R37): the check comes before any byte is written. -/
def memWrite (m : Memory) (a : Nat) (v : List Byte) : Except Fault Memory :=
  if rangeLegal a v.length then .ok (Memory.writeList m a v) else .error (outOfBounds a)

/-! ### How a tick ends -/

/-- `raise E(info)` (R130), the one operation that every failure goes through. The spec gives a failure
no trap entry: no register is saved, no mode changes, the pc goes nowhere (R132). The failure is
returned to the caller and the state stays as it was before the tick (R71), so there is no return
from it either (R133). -/
def raise (e : Fault) : Result := .fault e

/-- The numeric code of a failure (R129, decision D28, log 29). -/
def Fault.code : Fault → Nat
  | .memoryOutOfBounds _ => 1
  | .stackOverflow => 2
  | .stackUnderflow => 3
  | .invalidRegisterIndex => 4

/-- `next = pc + 2` (R74). -/
def State.nextPc (s : State) : Word := s.pc + 2

/-- `pc <- next` (R74). -/
def State.advance (s : State) : State := s.setPc s.nextPc

/-- `skip_if(c)`: `pc <- pc + 4` if `c`, else `pc <- pc + 2` (R10, R83). -/
def skipIf (c : Bool) (s : State) : Result := .next (if c then s.setPc (s.pc + 4) else s.advance)

/-- The write-back of a register instruction: `V[x] <- b; pc <- next`. -/
def writeReg (x : RegIdx) (b : Byte) (s : State) : Result := .next (s.setReg x b).advance

/-- The write-back of an instruction with a flag: the result first, the flag second, so that the flag
wins when `x` is 15 (R90). -/
def writeRegFlag (x : RegIdx) (b : Byte) (flag : BitVec 1) (s : State) : Result :=
  .next ((s.setReg x b).setFlag flag).advance

/-! ### The call stack (R22) -/

/-- Push a return address, or StackOverflow when the stack holds STACK_CAPACITY entries (R81; log 13). -/
def push (s : State) (a : Word) : Except Fault State :=
  if s.stack.length < s.stackCapacity then .ok (s.setStack (a :: s.stack)) else .error .stackOverflow

/-- Pop the top return address, or StackUnderflow when the stack is empty (R79). -/
def pop (s : State) : Except Fault (Word × State) :=
  match s.stack with
  | [] => .error .stackUnderflow
  | a :: rest => .ok (a, s.setStack rest)

/-! ### Fetch (R69, R70) -/

/-- R70: fetch is legal iff `pc ≤ 0xFFE` and the pc is even. -/
abbrev fetchLegal (pc : Word) : Prop := pc.toNat ≤ 0xFFE ∧ pc.toNat % 2 = 0

/-- The fetch of a tick: the big-endian word at the pc (R34), or MemoryOutOfBounds(pc) (R70). -/
def fetch (s : State) : Except Fault Word :=
  if fetchLegal s.pc then
    .ok (wordOfBytes (s.byte s.pc.toNat) (s.byte (s.pc.toNat + 1)))
  else .error (.memoryOutOfBounds s.pc.toNat)

end Sys2Proof.Machine
end

