-- ==== Sys2Proof/Machine/Operands.lean ====
section
/-! DEFINITION. The operand forms: how an instruction turns its fields into values (spec
30_encoding.md R55, 42_alu.md R100, 43_index_memory.md R104 to R110, 45_timers_keys.md R122). -/

namespace Sys2Proof.Machine

/-- A 12-bit address used as a 16-bit value: `zext_16(nnn)` (R55). -/
def address (nnn : Addr) : Word := nnn.zeroExtend 16

/-- The jump target `zext_16(nnn) + V[0]` (R82): at most 0x10FE, so no wrap. -/
def addressPlusV0 (nnn : Addr) (s : State) : Word := address nnn + (s.reg 0).zeroExtend 16

/-- The base of an index-relative access, as a natural number (R104, R38). -/
def indexBase (s : State) : Nat := s.i.toNat

/-- `(I + V[x]) mod 65536` (R106). -/
def indexPlusReg (x : RegIdx) (s : State) : Word := s.i + (s.reg x).zeroExtend 16

/-- The operand that shift-right takes, before shifting, under SHR_MODE (R100). -/
def shrOperand (x y : RegIdx) (s : State) : Byte :=
  match s.shrMode with
  | .vxByOne => s.reg x
  | .vyByOne => s.reg y
  | .vxByVy => s.reg x

/-- How far shift-right shifts, under SHR_MODE (R100). -/
def shrAmount (y : RegIdx) (s : State) : Nat :=
  match s.shrMode with
  | .vxByOne => 1
  | .vyByOne => 1
  | .vxByVy => (s.reg y).toNat

/-- The hundreds, tens and units digits of a byte (R108). -/
def bcdDigits (v : Byte) : List Byte :=
  [BitVec.ofNat 8 (v.toNat / 100), BitVec.ofNat 8 (v.toNat / 10 % 10), BitVec.ofNat 8 (v.toNat % 10)]

/-- How many registers a bulk transfer moves: V0..Vx, inclusive (R109, R110). -/
def bulkCount (x : RegIdx) : Nat := x.toNat + 1

/-- The values of V[0], V[1], ..., V[x] (R109). -/
def regsUpTo (x : RegIdx) (s : State) : List Byte :=
  (List.range (bulkCount x)).map (fun k => s.reg (BitVec.ofNat 4 k))

/-- `V[k] <- bytes[0]`, `V[k+1] <- bytes[1]`, and so on (R110). -/
def loadRegsFrom : Nat → List Byte → State → State
  | _, [], s => s
  | k, b :: bs, s => loadRegsFrom (k + 1) bs (s.setReg (BitVec.ofNat 4 k) b)

/-- `key_is(v)`: the pressed key is exactly `v`; never for `v > 15` (R122). -/
def keyIs (s : State) (v : Byte) : Bool :=
  match s.key with
  | some k => k.zeroExtend 8 == v
  | none => false

end Sys2Proof.Machine
end

