-- ==== Sys2Proof/Machine/Flags.lean ====
section
/-! DEFINITION. The results and the VF flags of the arithmetic (spec 42_alu.md): computed on naturals,
then narrowed to 8 bits. -/

namespace Sys2Proof.Machine

/-- A truth value as a flag bit. -/
def flagOf (c : Bool) : BitVec 1 := if c then 1 else 0

/-- `(a + b) mod 256` (R88). -/
def addBytes (a b : Byte) : Byte := BitVec.ofNat 8 (a.toNat + b.toNat)

/-- Carry: 1 iff `a + b > 255` (R98). -/
def carryFlag (a b : Byte) : BitVec 1 := flagOf (a.toNat + b.toNat > 255)

/-- `(a + 256 - b) mod 256` (R88). -/
def subBytes (a b : Byte) : Byte := BitVec.ofNat 8 (a.toNat + 256 - b.toNat)

/-- The "no borrow" flag of `a - b`: 1 if `a > b`, SUB_EQ_FLAG if `a = b`, else 0 (R99, R101). -/
def noBorrowFlag (subEqFlag : BitVec 1) (a b : Byte) : BitVec 1 :=
  if a.toNat > b.toNat then 1 else if a = b then subEqFlag else 0

/-- `op >> n`, logical: 0 when `n ≥ 8` (R100). -/
def shrByte (op : Byte) (n : Nat) : Byte := op >>> n

/-- The bit shift-right puts into VF: `op & 1` (R100). -/
def shrFlag (op : Byte) : BitVec 1 := op.extractLsb' 0 1

/-- `(op << 1) mod 256` (R102). -/
def shlByte (op : Byte) : Byte := op <<< 1

/-- The bit shift-left puts into VF: `op >> 7` (R102). -/
def shlFlag (op : Byte) : BitVec 1 := op.extractLsb' 7 1

end Sys2Proof.Machine
end

