-- ==== Sys2Proof/Machine/Alu.lean ====
section
/-! DEFINITION. Register loads and arithmetic (spec 42_alu.md R88 to R103). Every source is read from the
state before any register is written (R89). None of these can fail. -/

namespace Sys2Proof.Machine

/-- `LD Vx, kk` (R92). -/
def execLdImm (x : RegIdx) (kk : Byte) (s : State) : Result := writeReg x kk s

/-- `ADD Vx, kk` (R93): wraps, and writes no flag (R91). -/
def execAddImm (x : RegIdx) (kk : Byte) (s : State) : Result :=
  writeReg x (addBytes (s.reg x) kk) s

/-- `LD Vx, Vy` (R94). -/
def execMov (x y : RegIdx) (s : State) : Result := writeReg x (s.reg y) s

/-- `OR Vx, Vy` (R95). -/
def execOr (x y : RegIdx) (s : State) : Result := writeReg x (s.reg x ||| s.reg y) s

/-- `AND Vx, Vy` (R96). -/
def execAnd (x y : RegIdx) (s : State) : Result := writeReg x (s.reg x &&& s.reg y) s

/-- `XOR Vx, Vy` (R97). -/
def execXor (x y : RegIdx) (s : State) : Result := writeReg x (s.reg x ^^^ s.reg y) s

/-- `ADD Vx, Vy` (R98): VF is the carry. -/
def execAddReg (x y : RegIdx) (s : State) : Result :=
  writeRegFlag x (addBytes (s.reg x) (s.reg y)) (carryFlag (s.reg x) (s.reg y)) s

/-- `SUB Vx, Vy` (R99): VF is "no borrow" of `V[x] - V[y]`. -/
def execSub (x y : RegIdx) (s : State) : Result :=
  writeRegFlag x (subBytes (s.reg x) (s.reg y)) (noBorrowFlag s.subEqFlag (s.reg x) (s.reg y)) s

/-- `SHR Vx, Vy` (R100): the operand and the distance depend on SHR_MODE; VF is the operand's bit 0. -/
def execShr (x y : RegIdx) (s : State) : Result :=
  writeRegFlag x (shrByte (shrOperand x y s) (shrAmount y s)) (shrFlag (shrOperand x y s)) s

/-- `SUBN Vx, Vy` (R101): VF is "no borrow" of `V[y] - V[x]`. -/
def execSubn (x y : RegIdx) (s : State) : Result :=
  writeRegFlag x (subBytes (s.reg y) (s.reg x)) (noBorrowFlag s.subEqFlag (s.reg y) (s.reg x)) s

/-- `SHL Vx, Vy` (R102): shifts `V[x]` by one, `y` is ignored; VF is the operand's bit 7. -/
def execShl (x _y : RegIdx) (s : State) : Result :=
  writeRegFlag x (shlByte (s.reg x)) (shlFlag (s.reg x)) s

/-- `RND Vx, kk` (R103): the generator advances once, whatever the mask. -/
def execRnd (x : RegIdx) (kk : Byte) (s : State) : Result :=
  writeReg x ((rngNext s.rng).1 &&& kk) (s.setRng (rngNext s.rng).2)

end Sys2Proof.Machine
end

