-- ==== Sys2Proof/Machine/Control.lean ====
section
/-! DEFINITION. Control transfer, skips and the two non-operations (spec 41_control.md R77 to R87,
40_decoder_and_tick.md R75). -/

namespace Sys2Proof.Machine

/-- `SYS nnn` (R78): a no-op in this core; the operand is ignored. -/
def execSys (_nnn : Addr) (s : State) : Result := .next s.advance

/-- `RET` (R79): pop into the pc with no further advance, or StackUnderflow. -/
def execRet (s : State) : Result :=
  match pop s with
  | .ok (a, t) => .next (t.setPc a)
  | .error e => raise e

/-- `JP nnn` (R80). -/
def execJp (nnn : Addr) (s : State) : Result := .next (s.setPc (address nnn))

/-- `CALL nnn` (R81): push `next`, then jump, or StackOverflow. -/
def execCall (nnn : Addr) (s : State) : Result :=
  match push s s.nextPc with
  | .ok t => .next (t.setPc (address nnn))
  | .error e => raise e

/-- `JP V0, nnn` (R82). -/
def execJpV0 (nnn : Addr) (s : State) : Result := .next (s.setPc (addressPlusV0 nnn s))

/-- `SE Vx, kk` (R84). -/
def execSeImm (x : RegIdx) (kk : Byte) (s : State) : Result := skipIf (s.reg x == kk) s

/-- `SNE Vx, kk` (R85). -/
def execSneImm (x : RegIdx) (kk : Byte) (s : State) : Result := skipIf (s.reg x != kk) s

/-- `SE Vx, Vy` (R86). -/
def execSeReg (x y : RegIdx) (s : State) : Result := skipIf (s.reg x == s.reg y) s

/-- `SNE Vx, Vy` (R87). -/
def execSneReg (x y : RegIdx) (s : State) : Result := skipIf (s.reg x != s.reg y) s

/-- `unknown(w)` (R75): a no-op that advances; not an error (decision D25, log 27). -/
def execUnknown (_w : Word) (s : State) : Result := .next s.advance

end Sys2Proof.Machine
end

