-- ==== Sys2Proof/Machine/Compositor.lean ====
section
/-! DEFINITION. The display compositor: bytes and pixels of the framebuffer, `clear`, `blit` and
`draw` (spec 44_display.md R111 to R118). -/

namespace Sys2Proof.Machine

/-- `fb[r*8 + b]` (R27). -/
def fbByte (fb : Framebuffer) (r : Fin 32) (b : Fin 8) : Byte :=
  fb[r.val * 8 + b.val]'(by omega)

/-- `fb[r*8 + b] <- v` (R27). -/
def setFbByte (fb : Framebuffer) (r : Fin 32) (b : Fin 8) (v : Byte) : Framebuffer :=
  fb.set (r.val * 8 + b.val) v (by omega)

/-- Pixel (column c, row r): bit `7 - (c mod 8)` of `fb[r*8 + c div 8]` (R112). -/
def pixel (fb : Framebuffer) (c : Fin 64) (r : Fin 32) : Bool :=
  (fbByte fb r ⟨c.val / 8, by omega⟩).getLsbD (7 - c.val % 8)

/-- `clear()`: every byte 0 (R111). -/
def clearFb : Framebuffer := Vector.replicate 256 0

/-- The part of a sprite byte that lands in byte `xo div 8` (R114). -/
def blitHi (xo : Fin 64) (sprite : Byte) : Byte := sprite >>> (xo.val % 8)

/-- The carry part, for the next byte of the row; 0 when `xo mod 8 = 0` (R114). -/
def blitLo (xo : Fin 64) (sprite : Byte) : Byte := sprite <<< (8 - xo.val % 8)

/-- The byte column a blit begins in: `xo div 8` (R114). -/
def blitByte (xo : Fin 64) : Fin 8 := ⟨xo.val / 8, by omega⟩

/-- `blit(row, xo, s)`: the new framebuffer, and whether a set pixel was turned off (R114, R116). Both
parts are XORed (R115); the carry part wraps to byte 0 of the same row. -/
def blit (fb : Framebuffer) (row : Fin 32) (xo : Fin 64) (sprite : Byte) : Framebuffer × Bool :=
  let b0 := blitByte xo
  let b1 := b0 + 1
  let old0 := fbByte fb row b0
  let old1 := fbByte fb row b1
  (setFbByte (setFbByte fb row b0 (old0 ^^^ blitHi xo sprite)) row b1 (old1 ^^^ blitLo xo sprite),
    (old0 &&& blitHi xo sprite) != 0 || (old1 &&& blitLo xo sprite) != 0)

/-- The rows of a draw from row `row` on, wrapping modulo 32 (R118). -/
def drawRows (fb : Framebuffer) (row : Fin 32) (xo : Fin 64) : List Byte → Framebuffer × Bool
  | [] => (fb, false)
  | b :: bs =>
    match blit fb row xo b with
    | (fb', hit) =>
      match drawRows fb' (row + 1) xo bs with
      | (fb'', hit') => (fb'', hit || hit')

/-- The column a draw begins at: `vx mod 64` (R118). -/
def drawColumn (vx : Byte) : Fin 64 := ⟨vx.toNat % 64, by omega⟩

/-- The row a draw begins at: `vy mod 32` (R118). -/
def drawRow (vy : Byte) : Fin 32 := ⟨vy.toNat % 32, by omega⟩

/-- `draw(vx, vy, sprite)` (R118). -/
def draw (fb : Framebuffer) (vx vy : Byte) (sprite : List Byte) : Framebuffer × Bool :=
  drawRows fb (drawRow vy) (drawColumn vx) sprite

end Sys2Proof.Machine
end

