-- ==== Sys2Proof/Machine/Display.lean ====
section
/-! DEFINITION. The two display instructions (spec 44_display.md R119, R120). -/

namespace Sys2Proof.Machine

/-- `CLS` (R120): VF is unchanged. -/
def execCls (s : State) : Result := .next (s.setFb clearFb).advance

/-- `DRW Vx, Vy, n` (R119): the coordinates are read before VF is written; height 0 reads and draws
nothing and sets VF to 0 (decision D24, log 26). -/
def execDrw (x y : RegIdx) (n : Nibble) (s : State) : Result :=
  match memRead s.mem (indexBase s) n.toNat with
  | .ok sprite =>
    .next ((s.setFb (draw s.fb (s.reg x) (s.reg y) sprite).1).setFlag
      (flagOf (draw s.fb (s.reg x) (s.reg y) sprite).2)).advance
  | .error e => raise e

end Sys2Proof.Machine
end

