-- ==== Sys2Proof/Machine/Index.lean ====
section
/-! DEFINITION. The index register, the BCD store and the bulk transfers (spec 43_index_memory.md R104 to
R110). An access never changes I (R104). -/

namespace Sys2Proof.Machine

/-- The end of an instruction that stores `v` at I: `MemWrite(I, n, v); pc <- next`, or the failure. -/
def storeAtIndex (v : List Byte) (s : State) : Result :=
  match memWrite s.mem (indexBase s) v with
  | .ok m => .next (s.setMem m).advance
  | .error e => raise e

/-- `LD I, nnn` (R105). -/
def execLdI (nnn : Addr) (s : State) : Result := .next (s.setI (address nnn)).advance

/-- `ADD I, Vx` (R106): modulo 65536, VF unchanged. -/
def execAddI (x : RegIdx) (s : State) : Result := .next (s.setI (indexPlusReg x s)).advance

/-- `LD F, Vx` (R107): I is GLYPH_ADDR of the register's value. -/
def execLdF (x : RegIdx) (s : State) : Result := .next (s.setI (glyphAddr (s.reg x))).advance

/-- `LD B, Vx` (R108): the three decimal digits at I, I+1, I+2. -/
def execLdB (x : RegIdx) (s : State) : Result := storeAtIndex (bcdDigits (s.reg x)) s

/-- `LD [I], Vx` (R109): V0..Vx at I, I+1, and so on. -/
def execLdMemStore (x : RegIdx) (s : State) : Result := storeAtIndex (regsUpTo x s) s

/-- `LD Vx, [I]` (R110): V0..Vx from I, I+1, and so on. -/
def execLdMemLoad (x : RegIdx) (s : State) : Result :=
  match memRead s.mem (indexBase s) (bulkCount x) with
  | .ok bytes => .next (loadRegsFrom 0 bytes s).advance
  | .error e => raise e

end Sys2Proof.Machine
end

