-- ==== Sys2Proof/Machine/TimersKeys.lean ====
section
/-! DEFINITION. Key skips, the key wait and the timers (spec 45_timers_keys.md R122 to R128). None of
these can fail. -/

namespace Sys2Proof.Machine

/-- `SKP Vx` (R123). -/
def execSkp (x : RegIdx) (s : State) : Result := skipIf (keyIs s (s.reg x)) s

/-- `SKNP Vx` (R124). -/
def execSknp (x : RegIdx) (s : State) : Result := skipIf (!keyIs s (s.reg x)) s

/-- `LD Vx, DT` (R125). -/
def execLdVxDt (x : RegIdx) (s : State) : Result := writeReg x s.dt s

/-- `LD Vx, K` (R126): with a key, load it and advance; with none, succeed and change nothing, so that the
next tick runs this instruction again. The key is not consumed (decision D20, log 22). -/
def execLdVxK (x : RegIdx) (s : State) : Result :=
  match s.key with
  | some k => writeReg x (k.zeroExtend 8) s
  | none => .next s

/-- `LD DT, Vx` (R127). -/
def execLdDtVx (x : RegIdx) (s : State) : Result := .next (s.setDt (s.reg x)).advance

/-- `LD ST, Vx` (R128). -/
def execLdStVx (x : RegIdx) (s : State) : Result := .next (s.setSt (s.reg x)).advance

end Sys2Proof.Machine
end

