-- ==== Sys2Proof/Machine/Tick.lean ====
section
/-! DEFINITION. The tick frame: fetch, decode, execute (spec 40_decoder_and_tick.md R69 to R73). -/

namespace Sys2Proof.Machine

/-- `tick(s)` (R69): the executed instruction and the next state, or the failure. The state a failing
tick leaves is `s` itself (R71), so a failure carries none. -/
def tick (s : State) : Host.Outcome (Instr × State) Fault Refusal :=
  match fetch s with
  | .error e => .fault e
  | .ok w =>
    match exec (decode w) s with
    | .next t => .next (decode w, t)
    | .fault e => .fault e
    | .refused r => .refused r

/-- A tick seen as a step of the state alone: the returned instruction is for tracing only (R20, R73). -/
def stateOfTick (t : Host.Outcome (Instr × State) Fault Refusal) : Result :=
  match t with
  | .next p => .next p.2
  | .fault e => .fault e
  | .refused r => .refused r

/-- Where an instruction is placed so that the next fetch reads it: at the pc, or at 0x200 with the pc
there if no fetch at the pc is legal (log 41). -/
def fetchAddress (s : State) : Word := if fetchLegal s.pc then s.pc else 0x200

/-- Place the two bytes of `w`, big-endian (R34), where the next fetch reads them. -/
def placeWord (s : State) (w : Word) : State :=
  (s.setPc (fetchAddress s)).setMem
    (Memory.writeList s.mem (fetchAddress s).toNat [highByte w, lowByte w])

end Sys2Proof.Machine
end

