-- ==== Sys2Proof/Machine/Step.lean ====
section
/-! DEFINITION. One step of the machine is one tick (spec 40_decoder_and_tick.md R72). -/

namespace Sys2Proof.Machine

/-- One call of `tick`, without the instruction it returns (R69, R72). -/
def step (s : State) : Host.Outcome State Fault Refusal := stateOfTick (tick s)

/-- `s` with the instruction whose low `nbits` bits are `w`, numbered as the opcode table numbers them,
placed where `step` fetches next. -/
def State.withFetchWord (s : State) (nbits w : Nat) : State := placeWord s (tableWord nbits w)

end Sys2Proof.Machine
end

