-- ==== Sys2Proof/Machine/HostOps.lean ====
section
/-! DEFINITION. The host's operations on the machine, run one at a time between ticks (spec
60_exceptions.md R137 to R141, 70_reset_and_hazards.md R146). `tick` is in Tick.lean. -/

namespace Sys2Proof.Machine

/-- LOAD_BASE (R6): where `create` puts the program image. -/
def loadBase : Nat := 0x200

/-- The longest image `create` takes: 0x1000 - 0x200 bytes (R146). -/
def maxImage : Nat := 3584

/-- `create(program_bytes, seed)` (R146), with the parameters of R7 as its third argument. -/
def create (image : List Byte) (seed : Seed) (params : Params) : Result :=
  if image.length ≤ maxImage then
    .next
      { v := Vector.replicate 16 0
        i := 0
        pc := 0x200
        dt := 0
        st := 0
        stack := []
        key := none
        rng := rngInit seed
        fb := clearFb
        mem := Memory.writeList [] loadBase image
        params := params }
  else .refused .imageTooLong

/-- A timer counts down and stops at 0 (R137, decision D26, log 28). -/
def countDown (b : Byte) : Byte := if b.toNat > 0 then b - 1 else b

/-- `decrement_timers(state)` (R137). -/
def decrementTimers (s : State) : State := (s.setDt (countDown s.dt)).setSt (countDown s.st)

/-- `set_key_pressed(state, key_or_none)` (R138): a value above 15 is refused. -/
def setKeyPressed (k : Option Nat) (s : State) : Result :=
  match k with
  | none => .next (s.setKey none)
  | some n => if n ≤ 15 then .next (s.setKey (some (BitVec.ofNat 4 n))) else .refused .keyOutOfRange

/-- `read_fb(state)`: the 256 packed bytes (R140). -/
def readFb (s : State) : Framebuffer := s.fb

/-- `read_fb(state)` as a flat array of pixels: `pixel(c, r)` (R140). -/
def readPixel (s : State) (c : Fin 64) (r : Fin 32) : Bool := pixel s.fb c r

/-- `read_regs(state)` (R140). -/
def readRegs (s : State) : Vector Byte 16 := s.v

/-- `read_i(state)` (R140). -/
def readI (s : State) : Word := s.i

/-- `read_timers(state)`: DT and ST (R140). -/
def readTimers (s : State) : Byte × Byte := (s.dt, s.st)

/-- `read_pc(state)` (R139, decision D35, log 35). -/
def readPc (s : State) : Word := s.pc

/-- The host calls that may change the state of a created machine (R140, R148). -/
inductive HostCall where
  /-- `tick(state)`. -/
  | tick
  /-- `decrement_timers(state)`. -/
  | decrementTimers
  /-- `set_key_pressed(state, key_or_none)`. -/
  | setKeyPressed (k : Option Nat)
  deriving DecidableEq, Repr

/-- What a host call that the model gives a step answers its caller. -/
inductive HostReply where
  /-- A tick's `Ok(ins)` (R73). -/
  | ok (i : Instr)
  /-- A tick's `Err(e)` (R129). -/
  | err (e : Fault)
  /-- A call that returns nothing. -/
  | done
  deriving DecidableEq, Repr

/-- A host call: the state after it and its answer. A refused call has no step, so it has neither (R138,
decision D33, log 32). -/
abbrev HostStep := Except Refusal (State × HostReply)

/-- A tick as a host call: a failing one leaves the state it was given (R71). -/
def HostStep.ofTick (s : State) (t : Host.Outcome (Instr × State) Fault Refusal) : HostStep :=
  match t with
  | .next p => .ok (p.2, .ok p.1)
  | .fault e => .ok (s, .err e)
  | .refused r => .error r

/-- A call that returns nothing, as a host call. -/
def HostStep.ofResult (s : State) (r : Result) : HostStep :=
  match r with
  | .next t => .ok (t, .done)
  | .fault e => .ok (s, .err e)
  | .refused r => .error r

/-- One host call (R140). After a failing tick the state is what it was before it, and the host may go on
calling (R71, R130, R133); a refused call ends the run (R138). -/
def HostCall.apply (c : HostCall) (s : State) : HostStep :=
  match c with
  | .tick => .ofTick s (Machine.tick s)
  | .decrementTimers => .ofResult s (.next (Machine.decrementTimers s))
  | .setKeyPressed k => .ofResult s (Machine.setKeyPressed k s)

/-- The host's schedule: calls one after another (R140, R141). A schedule with a refused call has no run
(R138, decision D33). -/
def runSchedule : List HostCall → State → Except Refusal State
  | [], s => .ok s
  | c :: cs, s =>
    match c.apply s with
    | .ok p => runSchedule cs p.1
    | .error r => .error r

end Sys2Proof.Machine
end

