-- ==== Sys2Proof/WellFormed.lean ====
section
/-! DEFINITION. Which instruction values `decode` can produce: all but the two exceptions that spec
40_decoder_and_tick.md R68 names. The widths of the operands are in their types. -/

namespace Sys2Proof

/-- R68: `sys(0x0E0)` and `sys(0x0EE)` are never produced, nor is `unknown(w)` with a mapped `w`. -/
def wellFormed : Instr → Bool
  | .sys nnn => nnn != 0x0E0 && nnn != 0x0EE
  | .unknown w => inUnknownSet w
  | .cls | .ret | .jp _ | .call _ | .seImm _ _ | .sneImm _ _ | .seReg _ _ | .ldImm _ _
  | .addImm _ _ | .mov _ _ | .or _ _ | .and _ _ | .xor _ _ | .addReg _ _ | .sub _ _ | .shr _ _
  | .subn _ _ | .shl _ _ | .sneReg _ _ | .ldI _ | .jpV0 _ | .rnd _ _ | .drw _ _ _ | .skp _
  | .sknp _ | .ldVxDt _ | .ldVxK _ | .ldDtVx _ | .ldStVx _ | .addI _ | .ldF _ | .ldB _
  | .ldMemStore _ | .ldMemLoad _ => true

end Sys2Proof
end

