-- ==== Sys2Proof/Safety.lean ====
section
/-! DEFINITION. The terms claims use: the invariant of the machine, which failure an instruction has,
which state an instruction may write (spec 10_state.md R18, R22, R29; 60_exceptions.md R129, R131). -/

namespace Sys2Proof.Machine

/-- What every reachable state satisfies: memory is in its canonical form; the capacity is at least 1
(R7) and bounds the stack's depth (R22); every return address is an even address not above 0x1000,
being the pc of a fetched CALL plus 2 (R81); the pc is at most 0x10FE (R18). -/
abbrev State.Inv (s : State) : Prop :=
  Memory.wf s.mem ∧ 1 ≤ s.stackCapacity ∧ s.stack.length ≤ s.stackCapacity ∧
    (∀ a ∈ s.stack, a.toNat ≤ 0x1000 ∧ a.toNat % 2 = 0) ∧ s.pc.toNat ≤ 0x10FE

/-- A state from which the next tick succeeds. -/
def Runs (s : State) : Prop := ∃ t, step s = .next t

/-- The failure of an access of `n` bytes at I, if it has one (R129). -/
def rangeFailure (s : State) (n : Nat) : Option Fault :=
  if rangeLegal (indexBase s) n then none else some (.memoryOutOfBounds (max (indexBase s) 0x1000))

/-- The one failure an instruction can have in a state (R129, R131): only CALL, RET, DRW and the three
memory transfers have a check that can fail. -/
def execFailure (i : Instr) (s : State) : Option Fault :=
  match i with
  | .call _ => if s.stack.length < s.stackCapacity then none else some .stackOverflow
  | .ret => if s.stack = [] then some .stackUnderflow else none
  | .drw _ _ n => rangeFailure s n.toNat
  | .ldB _ => rangeFailure s 3
  | .ldMemStore x => rangeFailure s (x.toNat + 1)
  | .ldMemLoad x => rangeFailure s (x.toNat + 1)
  | .sys _ | .cls | .jp _ | .seImm _ _ | .sneImm _ _ | .seReg _ _ | .ldImm _ _ | .addImm _ _
  | .mov _ _ | .or _ _ | .and _ _ | .xor _ _ | .addReg _ _ | .sub _ _ | .shr _ _ | .subn _ _
  | .shl _ _ | .sneReg _ _ | .ldI _ | .jpV0 _ | .rnd _ _ | .skp _ | .sknp _ | .ldVxDt _
  | .ldVxK _ | .ldDtVx _ | .ldStVx _ | .addI _ | .ldF _ | .unknown _ => none

/-- The general registers an instruction may write (R29). -/
def writesReg (i : Instr) (k : RegIdx) : Prop :=
  match i with
  | .ldImm x _ | .addImm x _ | .mov x _ | .or x _ | .and x _ | .xor x _ | .rnd x _ | .ldVxDt x
  | .ldVxK x => k = x
  | .addReg x _ | .sub x _ | .shr x _ | .subn x _ | .shl x _ => k = x ∨ k = vf
  | .drw _ _ _ => k = vf
  | .ldMemLoad x => k.toNat ≤ x.toNat
  | .sys _ | .cls | .ret | .jp _ | .call _ | .seImm _ _ | .sneImm _ _ | .seReg _ _ | .sneReg _ _
  | .ldI _ | .jpV0 _ | .skp _ | .sknp _ | .ldDtVx _ | .ldStVx _ | .addI _ | .ldF _ | .ldB _
  | .ldMemStore _ | .unknown _ => False

/-- How many bytes an instruction stores, at I and up (R40). -/
def storeLength (i : Instr) : Nat :=
  match i with
  | .ldB _ => 3
  | .ldMemStore x => x.toNat + 1
  | .sys _ | .cls | .ret | .jp _ | .call _ | .seImm _ _ | .sneImm _ _ | .seReg _ _ | .ldImm _ _
  | .addImm _ _ | .mov _ _ | .or _ _ | .and _ _ | .xor _ _ | .addReg _ _ | .sub _ _ | .shr _ _
  | .subn _ _ | .shl _ _ | .sneReg _ _ | .ldI _ | .jpV0 _ | .rnd _ _ | .drw _ _ _ | .skp _
  | .sknp _ | .ldVxDt _ | .ldVxK _ | .ldDtVx _ | .ldStVx _ | .addI _ | .ldF _ | .ldMemLoad _
  | .unknown _ => 0

/-- What address `a` reads as once `bytes` are stored at I, I+1, and so on: the stored byte inside the store,
the byte from before it outside (R37, R47). -/
def byteAfterStore (s : State) (bytes : List Byte) (a : Nat) : Byte :=
  if indexBase s ≤ a then (bytes[a - indexBase s]?).getD (s.byte a) else s.byte a

/-- `t` is `s` after `V[x] <- n; pc <- next`, with nothing else changed. -/
def WroteReg (s t : State) (x : RegIdx) (n : Nat) : Prop :=
  t = { s with v := t.v, pc := s.pc + 2 } ∧ (t.reg x).toNat = n ∧ ∀ k, k ≠ x → t.reg k = s.reg k

/-- `t` is `s` after `V[x] <- n; V[15] <- flag; pc <- next`, with nothing else changed: for `x = 15` the
flag is what VF holds. -/
def WroteRegFlag (s t : State) (x : RegIdx) (n flag : Nat) : Prop :=
  t = { s with v := t.v, pc := s.pc + 2 } ∧ (t.reg vf).toNat = flag ∧
    (x ≠ vf → (t.reg x).toNat = n) ∧ ∀ k, k ≠ x → k ≠ vf → t.reg k = s.reg k

/-- The sprite pixel that a draw at `(vx, vy)` puts on column `c`, row `r`: byte `j` of the sprite
covers row `(vy + j) mod 32`, its bit `7 - k` column `(vx + k) mod 64` (R113, R118). -/
def spritePixel (vx vy : Byte) (sprite : List Byte) (c : Fin 64) (r : Fin 32) : Prop :=
  ∃ j k : Nat, k < 8 ∧ ((vy.toNat + j) % 32 = r.val ∧ (vx.toNat + k) % 64 = c.val) ∧
    ∃ b, sprite[j]? = some b ∧ b.getLsbD (7 - k) = true

end Sys2Proof.Machine
end

