-- ==== Sys2Proof/Certificates/Slice0/Obligations.lean ====
section
/-! DEFINITION. The statements for the provers, in the order of the spec's files. Where a statement rests
on a point that the spec itself marks as its own decision or derivation, its docstring says so. -/

open Sys2Proof Sys2Proof.Machine

/-! ### Encoding -/

/-- The encoder's inverse (40_decoder_and_tick.md section 1, marked derived there): decoding the encoding
of an instruction value that is none of the two exceptions gives it back, every operand at every value. -/
def Obligations.DecodeOfEncodeIsIdentity : Prop :=
  ∀ i, wellFormed i = true → decode (encode i) = i

/-- `encode(decode(w)) = w` for every word (40_decoder_and_tick.md section 1, marked derived there). -/
def Obligations.EncodeOfDecodeIsIdentity : Prop :=
  ∀ w, encode (decode w) = w

/-- The unknown set, written from its own table (30_encoding.md section 5, family 9 by decision D6, family F
by D7), is exactly the set of words that decode to `unknown`, each carrying its whole word; and `decode`
never gives one of the encoder's exceptions (40_decoder_and_tick.md section 1, marked derived there). -/
def Obligations.UnknownSetIsWhatDecodesToUnknown : Prop :=
  ∀ w, (decode w = .unknown w ↔ inUnknownSet w = true) ∧ (∀ w', decode w = .unknown w' → w' = w) ∧
    wellFormed (decode w) = true

/-- The output bus (30_encoding.md section 3, decision D29): `raw` is the word; `tag` is the ordinal of the
instruction the word is the encoding of, 35 exactly for the unknown set (the bytes of family F are decision D7,
9xy0 alone is decision D6). -/
def Obligations.DecoderBusCarriesTagAndWord : Prop :=
  (∀ w, (decoderBus w).2 = w ∧ ((decoderBus w).1 = 35 ↔ inUnknownSet w = true)) ∧
  ∀ (nnn : Addr) (x y : RegIdx) (n : Nibble) (kk : Byte),
    (nnn ≠ 0x0E0 → nnn ≠ 0x0EE → (decoderBus (0x0#4 ++ nnn)).1 = 0) ∧
    (decoderBus 0x00E0).1 = 1 ∧
    (decoderBus 0x00EE).1 = 2 ∧
    (decoderBus (0x1#4 ++ nnn)).1 = 3 ∧
    (decoderBus (0x2#4 ++ nnn)).1 = 4 ∧
    (decoderBus (0x3#4 ++ x ++ kk)).1 = 5 ∧
    (decoderBus (0x4#4 ++ x ++ kk)).1 = 6 ∧
    (decoderBus (0x5#4 ++ x ++ y ++ 0x0#4)).1 = 7 ∧
    (decoderBus (0x6#4 ++ x ++ kk)).1 = 8 ∧
    (decoderBus (0x7#4 ++ x ++ kk)).1 = 9 ∧
    (decoderBus (0x8#4 ++ x ++ y ++ 0x0#4)).1 = 10 ∧
    (decoderBus (0x8#4 ++ x ++ y ++ 0x1#4)).1 = 11 ∧
    (decoderBus (0x8#4 ++ x ++ y ++ 0x2#4)).1 = 12 ∧
    (decoderBus (0x8#4 ++ x ++ y ++ 0x3#4)).1 = 13 ∧
    (decoderBus (0x8#4 ++ x ++ y ++ 0x4#4)).1 = 14 ∧
    (decoderBus (0x8#4 ++ x ++ y ++ 0x5#4)).1 = 15 ∧
    (decoderBus (0x8#4 ++ x ++ y ++ 0x6#4)).1 = 16 ∧
    (decoderBus (0x8#4 ++ x ++ y ++ 0x7#4)).1 = 17 ∧
    (decoderBus (0x8#4 ++ x ++ y ++ 0xE#4)).1 = 18 ∧
    (decoderBus (0x9#4 ++ x ++ y ++ 0x0#4)).1 = 19 ∧
    (decoderBus (0xA#4 ++ nnn)).1 = 20 ∧
    (decoderBus (0xB#4 ++ nnn)).1 = 21 ∧
    (decoderBus (0xC#4 ++ x ++ kk)).1 = 22 ∧
    (decoderBus (0xD#4 ++ x ++ y ++ n)).1 = 23 ∧
    (decoderBus (0xE#4 ++ x ++ 0x9E#8)).1 = 24 ∧
    (decoderBus (0xE#4 ++ x ++ 0xA1#8)).1 = 25 ∧
    (decoderBus (0xF#4 ++ x ++ 0x07#8)).1 = 26 ∧
    (decoderBus (0xF#4 ++ x ++ 0x0A#8)).1 = 27 ∧
    (decoderBus (0xF#4 ++ x ++ 0x15#8)).1 = 28 ∧
    (decoderBus (0xF#4 ++ x ++ 0x18#8)).1 = 29 ∧
    (decoderBus (0xF#4 ++ x ++ 0x1E#8)).1 = 30 ∧
    (decoderBus (0xF#4 ++ x ++ 0x29#8)).1 = 31 ∧
    (decoderBus (0xF#4 ++ x ++ 0x33#8)).1 = 32 ∧
    (decoderBus (0xF#4 ++ x ++ 0x55#8)).1 = 33 ∧
    (decoderBus (0xF#4 ++ x ++ 0x65#8)).1 = 34

/-- R49: every instruction is two bytes; a decoder always consumes two, whatever follows. -/
def Obligations.EveryInstructionIsTwoBytes : Prop :=
  (∀ i, (encodeBytes i).length = 2) ∧
    (∀ hi lo rest, decodeBytes (hi :: lo :: rest) = .ok (decode (hi ++ lo), rest)) ∧
    ∀ i rest, decodeBytes (encodeBytes i ++ rest) = .ok (decode (encode i), rest)

/-- Words written out from the encodings, one for each file of instructions (95_test_vectors.md section 2). -/
def Obligations.SpecWordsDecodeAsTabled : Prop :=
  decode 0x00E0 = .cls ∧ decode 0x01E0 = .sys 0x1E0 ∧ decode 0x2ABC = .call 0xABC ∧
    decode 0x3A5F = .seImm 10 0x5F ∧ decode 0x8AB5 = .sub 10 11 ∧ decode 0x8AB8 = .unknown 0x8AB8 ∧
    decode 0xD125 = .drw 1 2 5 ∧ decode 0xE5A1 = .sknp 5 ∧ decode 0xF633 = .ldB 6

/-! ### Memory -/

/-- `MemRead` answers the bytes of the range, or MemoryOutOfBounds(max(a, 0x1000)) (R36); that a read of no bytes
is legal at every address is R35's last sentence, decision D31 (log 31). -/
def Obligations.MemReadAnswersTheRange : Prop :=
  ∀ m a n,
    (a + n ≤ 0x1000 → ∃ bytes, memRead m a n = .ok bytes ∧ bytes.length = n ∧
      ∀ k, k < n → bytes[k]? = some (Memory.read m (a + k))) ∧
    (1 ≤ n → a + n - 1 > 0xFFF → memRead m a n = .error (.memoryOutOfBounds (max a 0x1000))) ∧
    memRead m a 0 = .ok []

/-- R37: `MemWrite` writes exactly the bytes of the range, or nothing. -/
def Obligations.MemWriteWritesTheRange : Prop :=
  ∀ m a v, Memory.wf m →
    (a + v.length ≤ 0x1000 → ∃ m', memWrite m a v = .ok m' ∧ Memory.wf m' ∧
      (∀ k b, v[k]? = some b → Memory.read m' (a + k) = b) ∧
      ∀ c, (c < a ∨ a + v.length ≤ c) → Memory.read m' c = Memory.read m c) ∧
    (1 ≤ v.length → a + v.length - 1 > 0xFFF →
      memWrite m a v = .error (.memoryOutOfBounds (max a 0x1000)))

/-- The model's own canonical form: two canonical memories that read the same are the same data. -/
def Obligations.CanonicalMemoriesAreExtensional : Prop :=
  ∀ m m', Memory.wf m → Memory.wf m' →
    (∀ a, a < 0x1000 → Memory.read m a = Memory.read m' a) → m = m'

/-! ### The tick frame -/

/-- A step at a legal pc runs the instruction decoded from the two bytes there, high byte first. -/
def Obligations.StepRunsTheDecodedInstruction : Prop :=
  ∀ s, s.pc.toNat ≤ 0xFFE → s.pc.toNat % 2 = 0 →
    step s = exec (decode (s.byte s.pc.toNat ++ s.byte (s.pc.toNat + 1))) s

/-- A fetch at an odd pc, or above 0xFFE, fails with the pc itself (40_decoder_and_tick.md section 2,
decision D1), and fails before anything is decoded. -/
def Obligations.IllegalFetchFaultsWithThePc : Prop :=
  ∀ s, (s.pc.toNat > 0xFFE ∨ s.pc.toNat % 2 = 1) →
    tick s = .fault (.memoryOutOfBounds s.pc.toNat) ∧ step s = .fault (.memoryOutOfBounds s.pc.toNat)

/-- R73: a successful tick returns the instruction it decoded and executed; a failing one only a failure. -/
def Obligations.TickReturnsTheExecutedInstruction : Prop :=
  ∀ s, (∀ i t, tick s = .next (i, t) →
      i = decode (s.byte s.pc.toNat ++ s.byte (s.pc.toNat + 1)) ∧ exec i s = .next t ∧
      step s = .next t) ∧
    ∀ e, step s = .fault e ↔ tick s = .fault e

/-- The model's own placing of a word (log 36, 41): the next step runs exactly it. -/
def Obligations.PlacedWordRunsNext : Prop :=
  ∀ (s : State) (w : Nat), Memory.wf s.mem → w < 0x10000 →
    step (s.withFetchWord 16 w) = exec (decode (BitVec.ofNat 16 w)) (s.withFetchWord 16 w) ∧
      s.withFetchWord 16 w = { s with pc := (s.withFetchWord 16 w).pc, mem := (s.withFetchWord 16 w).mem } ∧
      (fetchLegal s.pc → (s.withFetchWord 16 w).pc = s.pc)

/-! ### Whole-machine rules -/

/-- Each instruction has at most one check that can fail (60_exceptions.md section 1, marked derived
there): it fails exactly with the failure listed for it, and otherwise completes. That CALL fails also on a
stack DEEPER than the capacity, where R81 speaks of equality, is the model's choice (log 13, DEDUCED); no reachable
state has one. -/
def Obligations.ExecFailsExactlyAsListed : Prop :=
  ∀ i s, (∀ e, execFailure i s = some e → exec i s = .fault e) ∧
    (execFailure i s = none → ∃ t, exec i s = .next t)

/-- The invariant holds at reset. It rests on two of the model's choices among values the source does not give:
the empty stack (log 7, decision D19) and the default capacity 16 (log 1, decision D4). -/
def Obligations.ResetMeetsTheInvariant : Prop := State.reset.Inv

/-- Every step keeps the invariant: canonical memory, the stack within its capacity and holding even
addresses up to 0x1000, the pc at most 0x10FE (10_state.md sections 2 and 3, marked derived there). -/
def Obligations.EveryStepKeepsTheInvariant : Prop :=
  ∀ s t : State, s.Inv → step s = .next t → t.Inv

/-- Every schedule of host calls whose keys are 0..15 runs to its end and keeps the invariant; `create`
establishes it. -/
def Obligations.HostCallsKeepTheInvariant : Prop :=
  (∀ (calls : List HostCall) (s : State), s.Inv → (∀ n, .setKeyPressed (some n) ∈ calls → n ≤ 15) →
      ∃ t, runSchedule calls s = .ok t ∧ t.Inv) ∧
    ∀ image seed params (t : State), 1 ≤ params.stackCapacity →
      create image seed params = .next t → t.Inv

/-- After a failing tick the state is what it was, and ticking again gives the same failure, whatever the
host did to the key and the timers in between (60_exceptions.md section 2, marked derived there; decision
D2). -/
def Obligations.FailedTickChangesNothingAndRepeats : Prop :=
  ∀ s t e, HostCall.apply .tick s = .ok (t, .err e) →
    t = s ∧ ∀ key dt st, HostCall.apply .tick { t with key := key, dt := dt, st := st } =
      .ok ({ t with key := key, dt := dt, st := st }, .err e)

/-! ### Frames, for every instruction (10_state.md section 6, marked derived there) -/

/-- A general register changes only where the instruction is listed as writing it. -/
def Obligations.RegistersChangeOnlyWhereListed : Prop :=
  ∀ i s t, exec i s = .next t → ∀ k, ¬ writesReg i k → t.reg k = s.reg k

/-- A byte of memory changes only inside the bytes the instruction stores, which start at I: three for
Fx33, x + 1 for Fx55, none for every other instruction. -/
def Obligations.MemoryChangesOnlyInTheStoredRange : Prop :=
  ∀ i s t, exec i s = .next t →
    ∀ a, (a < indexBase s ∨ indexBase s + storeLength i ≤ a) → t.byte a = s.byte a

/-- I is written only by Annn, Fx1E and Fx29; the stack only by 00EE and 2nnn; the framebuffer only by 00E0 and
Dxyn; the generator only by Cxkk. -/
def Obligations.SpecialStateHasListedWritersOnly : Prop :=
  ∀ i s t, exec i s = .next t →
    ((∀ nnn, i ≠ .ldI nnn) → (∀ x, i ≠ .addI x) → (∀ x, i ≠ .ldF x) → t.i = s.i) ∧
    (i ≠ .ret → (∀ nnn, i ≠ .call nnn) → t.stack = s.stack) ∧
    (i ≠ .cls → (∀ x y n, i ≠ .drw x y n) → t.fb = s.fb) ∧
    ((∀ x kk, i ≠ .rnd x kk) → t.rng = s.rng)

/-- R24 and R72: no instruction writes the key, and a tick moves a timer only by Fx15 and Fx18, never down
by itself. The parameters (the model's own field) never change. -/
def Obligations.TickNeverWritesKeyNorCountsTimers : Prop :=
  ∀ s i t, tick s = .next (i, t) →
    t.key = s.key ∧ t.params = s.params ∧
      ((∀ x, i ≠ .ldDtVx x) → t.dt = s.dt) ∧ ((∀ x, i ≠ .ldStVx x) → t.st = s.st)

/-! ### Control transfer and skips -/

/-- R78: `SYS nnn` advances the pc and does nothing else; the zero word is `SYS 0x000`. -/
def Obligations.SysOnlyAdvances : Prop :=
  (∀ nnn s, exec (.sys nnn) s = .next { s with pc := s.pc + 2 }) ∧ decode 0x0000 = .sys 0x000

/-- An unknown word advances the pc and does nothing else (40_decoder_and_tick.md section 3, decision D25). -/
def Obligations.UnknownOnlyAdvances : Prop :=
  ∀ w s, exec (.unknown w) s = .next { s with pc := s.pc + 2 }

/-- R80: `JP nnn` sets the pc to `nnn`; an odd target, or 0xFFF, makes the next fetch fail (with which failure,
by decision D1, is `IllegalFetchFaultsWithThePc`). -/
def Obligations.JpSetsThePc : Prop :=
  ∀ nnn s, ∃ t, exec (.jp nnn) s = .next t ∧ t = { s with pc := t.pc } ∧ t.pc.toNat = nnn.toNat ∧
    ((nnn.toNat % 2 = 1 ∨ nnn.toNat = 0xFFF) → ∃ e, step t = .fault e)

/-- R82: `JP V0, nnn` sets the pc to `nnn + V[0]` with no clamp and no wrap; an out-of-range or odd result
makes the next fetch fail (with which failure, by decision D1, is `IllegalFetchFaultsWithThePc`). -/
def Obligations.JpV0AddsWithoutWrap : Prop :=
  ∀ nnn s, ∃ t, exec (.jpV0 nnn) s = .next t ∧ t = { s with pc := t.pc } ∧
    t.pc.toNat = nnn.toNat + (s.reg 0).toNat ∧ t.pc.toNat ≤ 0x10FE ∧
    ((t.pc.toNat > 0xFFE ∨ t.pc.toNat % 2 = 1) → ∃ e, step t = .fault e)

/-- `CALL nnn` below the capacity pushes `pc + 2` and jumps; at the capacity it fails with StackOverflow
(41_control.md section 2, decisions D4 and D5, conflict C5). -/
def Obligations.CallPushesNextAndJumps : Prop :=
  ∀ nnn s,
    (s.stack.length < s.params.stackCapacity → ∃ t, exec (.call nnn) s = .next t ∧
      t = { s with stack := (s.pc + 2) :: s.stack, pc := t.pc } ∧ t.pc.toNat = nnn.toNat) ∧
    (s.stack.length = s.params.stackCapacity → exec (.call nnn) s = .fault .stackOverflow)

/-- `RET` pops the top into the pc with no further advance; on an empty stack it fails with
StackUnderflow (41_control.md section 1, decisions D3 and D5). -/
def Obligations.RetPopsIntoThePc : Prop :=
  (∀ s a rest, s.stack = a :: rest → exec .ret s = .next { s with stack := rest, pc := a }) ∧
    ∀ s, s.stack = [] → exec .ret s = .fault .stackUnderflow

/-- A RET after a completed CALL, from whatever pc, leaves the caller's state at the address after the
CALL (95_test_vectors.md E8, conflict C5). -/
def Obligations.RetAfterCallResumesTheCaller : Prop :=
  ∀ nnn s t p, exec (.call nnn) s = .next t →
    exec .ret { t with pc := p } = .next { s with pc := s.pc + 2 }

/-- R84, R85 and R86: the compare skips add 4 to the pc when their condition holds, else 2, and change
nothing else; `SE Vx, Vx` always skips, and 5xyn with n other than 0 is no skip but unknown. -/
def Obligations.CompareSkipsAddFourOrTwo : Prop :=
  ∀ x y kk s,
    exec (.seImm x kk) s = .next { s with pc := if s.reg x = kk then s.pc + 4 else s.pc + 2 } ∧
    exec (.sneImm x kk) s = .next { s with pc := if s.reg x ≠ kk then s.pc + 4 else s.pc + 2 } ∧
    exec (.seReg x y) s = .next { s with pc := if s.reg x = s.reg y then s.pc + 4 else s.pc + 2 } ∧
    exec (.seReg x x) s = .next { s with pc := s.pc + 4 } ∧
    ∀ n : Nibble, n ≠ 0 → decode (0x5#4 ++ x ++ y ++ n) = .unknown (0x5#4 ++ x ++ y ++ n)

/-- `SNE Vx, Vy` adds 4 to the pc when the registers differ, else 2, and changes nothing else; `SNE Vx, Vx` never
skips; 9xyn with n other than 0 is unknown (41_control.md section 3; the last is decision D6). -/
def Obligations.SneRegSkipsOnDifferentRegisters : Prop :=
  ∀ x y s,
    exec (.sneReg x y) s = .next { s with pc := if s.reg x ≠ s.reg y then s.pc + 4 else s.pc + 2 } ∧
    exec (.sneReg x x) s = .next { s with pc := s.pc + 2 } ∧
    ∀ n : Nibble, n ≠ 0 → decode (0x9#4 ++ x ++ y ++ n) = .unknown (0x9#4 ++ x ++ y ++ n)

/-! ### Register loads and arithmetic -/

/-- R92 and R93: load and add immediate; the addition wraps and writes no flag. -/
def Obligations.ImmediatesLoadAndAdd : Prop :=
  ∀ x kk s,
    (∃ t, exec (.ldImm x kk) s = .next t ∧ WroteReg s t x kk.toNat) ∧
    ∃ t, exec (.addImm x kk) s = .next t ∧ WroteReg s t x (((s.reg x).toNat + kk.toNat) % 256)

/-- `LD Vx, Vy` copies V[y] into V[x] (42_alu.md section 3; the direction is decision D8). -/
def Obligations.MovCopiesYIntoX : Prop :=
  ∀ x y s, ∃ t, exec (.mov x y) s = .next t ∧ WroteReg s t x (s.reg y).toNat

/-- R95, R96 and R97: OR, AND and XOR, with no flag; on one register twice, OR and AND leave it and XOR
clears it. -/
def Obligations.LogicalOperationsWriteX : Prop :=
  ∀ x y s,
    (∃ t, exec (.or x y) s = .next t ∧ WroteReg s t x ((s.reg x).toNat ||| (s.reg y).toNat)) ∧
    (∃ t, exec (.and x y) s = .next t ∧ WroteReg s t x ((s.reg x).toNat &&& (s.reg y).toNat)) ∧
    (∃ t, exec (.xor x y) s = .next t ∧ WroteReg s t x ((s.reg x).toNat ^^^ (s.reg y).toNat)) ∧
    (∃ t, exec (.or x x) s = .next t ∧ WroteReg s t x (s.reg x).toNat) ∧
    (∃ t, exec (.and x x) s = .next t ∧ WroteReg s t x (s.reg x).toNat) ∧
    ∃ t, exec (.xor x x) s = .next t ∧ WroteReg s t x 0

/-- R98: the sum modulo 256, VF the carry; for `x = 15` VF ends as the carry. -/
def Obligations.AddRegWritesSumAndCarry : Prop :=
  ∀ x y s, ∃ t, exec (.addReg x y) s = .next t ∧
    WroteRegFlag s t x (((s.reg x).toNat + (s.reg y).toNat) % 256)
      (if (s.reg x).toNat + (s.reg y).toNat > 255 then 1 else 0)

/-- SUB and SUBN: the difference modulo 256, VF 1 if the minuend is greater, SUB_EQ_FLAG if the operands
are equal, else 0; the flag wins for `x = 15` (42_alu.md section 3, decisions D9 and D12, for every value of
the parameter). -/
def Obligations.SubtractionsWriteDifferenceAndNoBorrow : Prop :=
  ∀ x y s,
    (∃ t, exec (.sub x y) s = .next t ∧
      WroteRegFlag s t x (((s.reg x).toNat + 256 - (s.reg y).toNat) % 256)
        (if (s.reg x).toNat > (s.reg y).toNat then 1
          else if s.reg x = s.reg y then s.params.subEqFlag.toNat else 0)) ∧
    ∃ t, exec (.subn x y) s = .next t ∧
      WroteRegFlag s t x (((s.reg y).toNat + 256 - (s.reg x).toNat) % 256)
        (if (s.reg y).toNat > (s.reg x).toNat then 1
          else if s.reg x = s.reg y then s.params.subEqFlag.toNat else 0)

/-- SHR under each SHR_MODE: the operand shifted right, VF its bit 0 (42_alu.md section 3, decisions D9 and
D11, for every value of the parameter). -/
def Obligations.ShrShiftsUnderItsMode : Prop :=
  ∀ x y s, ∃ t, exec (.shr x y) s = .next t ∧
    match s.params.shrMode with
    | .vxByOne => WroteRegFlag s t x ((s.reg x).toNat / 2) ((s.reg x).toNat % 2)
    | .vyByOne => WroteRegFlag s t x ((s.reg y).toNat / 2) ((s.reg y).toNat % 2)
    | .vxByVy => WroteRegFlag s t x ((s.reg x).toNat / 2 ^ (s.reg y).toNat) ((s.reg x).toNat % 2)

/-- SHL doubles V[x] modulo 256, VF its bit 7; V[y] plays no part (42_alu.md section 3, decisions D9 and D11). -/
def Obligations.ShlDoublesX : Prop :=
  ∀ x y s, ∃ t, exec (.shl x y) s = .next t ∧
    WroteRegFlag s t x ((s.reg x).toNat * 2 % 256) ((s.reg x).toNat / 128)

/-- The flags say what the 8-bit results lose (95_test_vectors.md E2, E3, E4): with a destination other than
VF, sum and carry give the exact sum, difference and borrow the exact difference of unequal operands, and
shift and flag the operand back. -/
def Obligations.ResultAndFlagDetermineTheExactValue : Prop :=
  ∀ x y s t, x ≠ vf →
    (exec (.addReg x y) s = .next t →
      (t.reg x).toNat + 256 * (t.reg vf).toNat = (s.reg x).toNat + (s.reg y).toNat) ∧
    (exec (.sub x y) s = .next t → s.reg x ≠ s.reg y →
      (t.reg x).toNat + (s.reg y).toNat = (s.reg x).toNat + 256 * (1 - (t.reg vf).toNat)) ∧
    (exec (.subn x y) s = .next t → s.reg x ≠ s.reg y →
      (t.reg x).toNat + (s.reg x).toNat = (s.reg y).toNat + 256 * (1 - (t.reg vf).toNat)) ∧
    (exec (.shl x y) s = .next t →
      (t.reg x).toNat + 256 * (t.reg vf).toNat = 2 * (s.reg x).toNat) ∧
    (exec (.shr x y) s = .next t → s.params.shrMode = .vxByOne →
      2 * (t.reg x).toNat + (t.reg vf).toNat = (s.reg x).toNat)

/-- RND draws once, masks the byte, and advances the generator whatever the mask (42_alu.md section 4; the
generator is an open parameter, decision D27, and this holds for every one). -/
def Obligations.RndMasksOneDraw : Prop :=
  ∀ x kk s, ∃ t, exec (.rnd x kk) s = .next t ∧
    t = { s with v := t.v, rng := (Config.rngNext s.rng).2, pc := s.pc + 2 } ∧
    t.reg x = (Config.rngNext s.rng).1 &&& kk ∧ ∀ k, k ≠ x → t.reg k = s.reg k

/-! ### Index register and memory operations -/

/-- R105: `LD I, nnn` sets I to `nnn`. -/
def Obligations.LdISetsTheIndex : Prop :=
  ∀ nnn s, ∃ t, exec (.ldI nnn) s = .next t ∧ t = { s with i := t.i, pc := s.pc + 2 } ∧
    t.i.toNat = nnn.toNat

/-- ADD I, Vx adds modulo 65536, VF unchanged (43_index_memory.md section 1, decisions D10 and D13); LD F, Vx
sets I to the open parameter GLYPH_ADDR of V[x] (decision D14). -/
def Obligations.IndexUpdatesFromARegister : Prop :=
  ∀ x s,
    (∃ t, exec (.addI x) s = .next t ∧ t = { s with i := t.i, pc := s.pc + 2 } ∧
      t.i.toNat = (s.i.toNat + (s.reg x).toNat) % 65536) ∧
    exec (.ldF x) s = .next { s with i := Config.glyphAddr (s.reg x), pc := s.pc + 2 }

/-- R108: LD B, Vx stores the three decimal digits of V[x] at I, I+1 and I+2 and changes nothing else; it
fails when I + 2 is above 0xFFF. -/
def Obligations.LdBStoresThreeDigits : Prop :=
  ∀ x s,
    (Memory.wf s.mem → s.i.toNat + 2 ≤ 0xFFF → ∃ t, exec (.ldB x) s = .next t ∧
      t = { s with mem := t.mem, pc := s.pc + 2 } ∧
      (t.byte s.i.toNat).toNat = (s.reg x).toNat / 100 ∧
      (t.byte (s.i.toNat + 1)).toNat = (s.reg x).toNat / 10 % 10 ∧
      (t.byte (s.i.toNat + 2)).toNat = (s.reg x).toNat % 10 ∧
      ∀ a, (a < s.i.toNat ∨ s.i.toNat + 3 ≤ a) → t.byte a = s.byte a) ∧
    (s.i.toNat + 2 > 0xFFF → exec (.ldB x) s = .fault (.memoryOutOfBounds (max s.i.toNat 0x1000)))

/-- R109: LD [I], Vx stores V0..Vx, inclusive, at I and up, leaves I alone and changes nothing else; it fails
when I + x is above 0xFFF. -/
def Obligations.LdMemStoreStoresV0ToVx : Prop :=
  ∀ x s,
    (Memory.wf s.mem → s.i.toNat + x.toNat ≤ 0xFFF → ∃ t, exec (.ldMemStore x) s = .next t ∧
      t = { s with mem := t.mem, pc := s.pc + 2 } ∧
      (∀ k : RegIdx, k.toNat ≤ x.toNat → t.byte (s.i.toNat + k.toNat) = s.reg k) ∧
      ∀ a, (a < s.i.toNat ∨ s.i.toNat + x.toNat < a) → t.byte a = s.byte a) ∧
    (s.i.toNat + x.toNat > 0xFFF →
      exec (.ldMemStore x) s = .fault (.memoryOutOfBounds (max s.i.toNat 0x1000)))

/-- R110: LD Vx, [I] loads V0..Vx, inclusive, from I and up, leaves I alone and changes nothing else; it
fails when I + x is above 0xFFF. -/
def Obligations.LdMemLoadLoadsV0ToVx : Prop :=
  ∀ x s,
    (s.i.toNat + x.toNat ≤ 0xFFF → ∃ t, exec (.ldMemLoad x) s = .next t ∧
      t = { s with v := t.v, pc := s.pc + 2 } ∧
      (∀ k : RegIdx, k.toNat ≤ x.toNat → t.reg k = s.byte (s.i.toNat + k.toNat)) ∧
      ∀ k : RegIdx, k.toNat > x.toNat → t.reg k = s.reg k) ∧
    (s.i.toNat + x.toNat > 0xFFF →
      exec (.ldMemLoad x) s = .fault (.memoryOutOfBounds (max s.i.toNat 0x1000)))

/-- A bulk store, then a bulk load of the same registers into any register file, gives the stored values
back (43_index_memory.md section 2). -/
def Obligations.BulkLoadUndoesBulkStore : Prop :=
  ∀ x s t u v', Memory.wf s.mem → exec (.ldMemStore x) s = .next t →
    exec (.ldMemLoad x) { t with v := v' } = .next u →
    u.i = s.i ∧ u.mem = t.mem ∧ ∀ k : RegIdx, k.toNat ≤ x.toNat → u.reg k = s.reg k

/-- Self-modifying code (20_memory.md section 6, marked derived there): until memory changes again, every fetch
after a completed Fx55 or Fx33, and every data read (a sprite, a bulk load), sees the stored bytes where it
overlaps them, be it in one byte or in all, and the bytes from before the store elsewhere. -/
def Obligations.NextFetchSeesTheStore : Prop :=
  ∀ x bytes s t u, Memory.wf s.mem →
    ((exec (.ldMemStore x) s = .next t ∧
        bytes = (List.range (x.toNat + 1)).map (fun k => s.reg (BitVec.ofNat 4 k))) ∨
      (exec (.ldB x) s = .next t ∧ bytes = [BitVec.ofNat 8 ((s.reg x).toNat / 100),
        BitVec.ofNat 8 ((s.reg x).toNat / 10 % 10), BitVec.ofNat 8 ((s.reg x).toNat % 10)])) →
    u.mem = t.mem →
    (fetchLegal u.pc → step u = exec (decode (byteAfterStore s bytes u.pc.toNat ++
      byteAfterStore s bytes (u.pc.toNat + 1))) u) ∧
    ∀ a n, a + n ≤ 0x1000 →
      memRead u.mem a n = .ok ((List.range n).map fun k => byteAfterStore s bytes (a + k))

/-! ### Display -/

/-- R120: CLS clears every byte of the framebuffer and changes nothing else. -/
def Obligations.ClsClearsTheFramebuffer : Prop :=
  ∀ s, ∃ t, exec .cls s = .next t ∧ t = { s with fb := t.fb, pc := s.pc + 2 } ∧
    ∀ r b, fbByte t.fb r b = 0

/-- DRW draws `n` bytes from I at (V[x], V[y]) and sets VF to the collision; with `n = 0` it always completes,
leaves the framebuffer and sets VF to 0; a range outside memory fails (44_display.md section 3, decisions D22
and D24). The sprite's pixels are those of `DrawTogglesTheSpritePixels`. -/
def Obligations.DrwDrawsTheSpriteAtI : Prop :=
  ∀ x y n s,
    (n.toNat = 0 ∨ s.i.toNat + n.toNat - 1 ≤ 0xFFF → ∃ t sprite, exec (.drw x y n) s = .next t ∧
      sprite.length = n.toNat ∧ (∀ k, k < n.toNat → sprite[k]? = some (s.byte (s.i.toNat + k))) ∧
      t = { s with v := t.v, fb := (draw s.fb (s.reg x) (s.reg y) sprite).1, pc := s.pc + 2 } ∧
      (t.reg vf).toNat = (if (draw s.fb (s.reg x) (s.reg y) sprite).2 then 1 else 0) ∧
      (n.toNat = 0 → t.fb = s.fb ∧ t.reg vf = 0) ∧
      ∀ k, k ≠ vf → t.reg k = s.reg k) ∧
    (1 ≤ n.toNat → s.i.toNat + n.toNat - 1 > 0xFFF →
      exec (.drw x y n) s = .fault (.memoryOutOfBounds (max s.i.toNat 0x1000)))

/-- The byte form of `blit` equals its pixel form (44_display.md section 2, marked derived there): the pixels
under the sprite byte's 1 bits toggle, no other pixel changes, and the result says whether one of them was
set. -/
def Obligations.BlitIsPixelByPixel : Prop :=
  ∀ fb row xo sprite,
    (∀ c r, pixel (blit fb row xo sprite).1 c r = true ↔
      ¬ (pixel fb c r = true ↔ r = row ∧ ∃ k, k < 8 ∧ c.val = (xo.val + k) % 64 ∧
        sprite.getLsbD (7 - k) = true)) ∧
    ((blit fb row xo sprite).2 = true ↔
      ∃ c k, k < 8 ∧ c.val = (xo.val + k) % 64 ∧ sprite.getLsbD (7 - k) = true ∧ pixel fb c row = true)

/-- A draw of at most 15 bytes toggles exactly the sprite's pixels, wrapped on both axes, and collides
exactly when one of them was set (44_display.md section 3; the vertical wrap is decision D22). -/
def Obligations.DrawTogglesTheSpritePixels : Prop :=
  ∀ fb vx vy sprite, sprite.length ≤ 15 →
    (∀ c r, pixel (draw fb vx vy sprite).1 c r = true ↔
      ¬ (pixel fb c r = true ↔ spritePixel vx vy sprite c r)) ∧
    ((draw fb vx vy sprite).2 = true ↔
      ∃ c r, pixel fb c r = true ∧ spritePixel vx vy sprite c r)

/-- Drawing the same sprite twice at the same place restores the framebuffer; if the first draw did not
collide and the sprite has a pixel, the second collides (95_test_vectors.md E6, conflict C2). -/
def Obligations.DrawingTwiceRestoresTheFramebuffer : Prop :=
  ∀ fb vx vy sprite, sprite.length ≤ 15 →
    (draw (draw fb vx vy sprite).1 vx vy sprite).1 = fb ∧
      ((draw fb vx vy sprite).2 = false → (∃ b ∈ sprite, b ≠ 0) →
        (draw (draw fb vx vy sprite).1 vx vy sprite).2 = true)

/-- The worked straddle (44_display.md section 4, marked derived there): every byte after the first draw on
a clear screen, its result, and the clear screen after the second. -/
def Obligations.WorkedStraddleGivesItsBytes : Prop :=
  let sprite : List Byte := [0x81, 0x81, 0xFF, 0x81, 0x81]
  let d := draw clearFb 7 0 sprite
  d.2 = false ∧
    (∀ r b, fbByte d.1 r b =
      if r.val < 5 then
        if b.val = 0 then 0x01 else if b.val = 1 then (if r.val = 2 then 0xFE else 0x02) else 0
      else 0) ∧
    (draw d.1 7 0 sprite).2 = true ∧ ∀ r b, fbByte (draw d.1 7 0 sprite).1 r b = 0

/-! ### Timers and keys -/

/-- SKP skips exactly when the pressed key is the whole value of V[x], SKNP exactly when it is not; with
V[x] above 15 the first never skips and the second always does (45_timers_keys.md section 1, decision
D21). -/
def Obligations.KeySkipsCompareTheWholeValue : Prop :=
  ∀ x s, ∃ c : Bool, (c = true ↔ ∃ k, s.key = some k ∧ k.toNat = (s.reg x).toNat) ∧
    exec (.skp x) s = .next { s with pc := if c then s.pc + 4 else s.pc + 2 } ∧
    exec (.sknp x) s = .next { s with pc := if c then s.pc + 2 else s.pc + 4 } ∧
    ((s.reg x).toNat > 15 → c = false)

/-- R125, R127 and R128: the timer moves. -/
def Obligations.TimerInstructionsMoveBytes : Prop :=
  ∀ x s,
    (∃ t, exec (.ldVxDt x) s = .next t ∧ WroteReg s t x s.dt.toNat) ∧
    exec (.ldDtVx x) s = .next { s with dt := s.reg x, pc := s.pc + 2 } ∧
    exec (.ldStVx x) s = .next { s with st := s.reg x, pc := s.pc + 2 }

/-- LD Vx, K: with a key it loads it, keeps it and advances; with none it completes and changes nothing, the
pc included (45_timers_keys.md section 2, decision D20). -/
def Obligations.KeyWaitLoadsOrStays : Prop :=
  ∀ x s,
    (∀ k, s.key = some k → ∃ t, exec (.ldVxK x) s = .next t ∧ WroteReg s t x k.toNat) ∧
    (s.key = none → exec (.ldVxK x) s = .next s)

/-! ### Reset and the host's operations -/

/-- R147: the first instruction a created machine executes is the one at 0x200, whatever the image and the
seed; and so it is for State.reset. -/
def Obligations.FirstInstructionIsAt0x200 : Prop :=
  (∀ image seed params t, create image seed params = .next t →
      t.pc = 0x200 ∧ step t = exec (decode (t.byte 0x200 ++ t.byte 0x201)) t) ∧
    State.reset.pc = 0x200 ∧
    step State.reset = exec (decode (State.reset.byte 0x200 ++ State.reset.byte 0x201)) State.reset

/-- The state after reset is `create` of the empty image with the open seed and the defaults of the
parameters (log 36): registers, I and timers 0, stack empty, no key, a clear screen (decision D19, log 7),
the generator `rng_init(seed)` (log 4). -/
def Obligations.ResetIsCreateOfTheEmptyImage : Prop :=
  create [] Config.seed Params.default = .next State.reset ∧
    (∀ k, State.reset.reg k = 0) ∧ State.reset.i = 0 ∧ State.reset.dt = 0 ∧ State.reset.st = 0 ∧
    State.reset.stack = [] ∧ State.reset.key = none ∧ (∀ r b, fbByte State.reset.fb r b = 0) ∧
    State.reset.rng = Config.rngInit Config.seed

/-- `create` of every image of at most 3584 bytes: the image at 0x200, 0 after it and RESERVED_IMAGE below
(decisions D15 and D16); the pc 0x200; V0..VF, I and the timers 0, the stack empty, no key, a clear screen
(decision D19, log 7); the generator `rng_init(seed)`. A longer image is refused (decision D17). All of it is
70_reset_and_hazards.md section 1. -/
def Obligations.CreateLoadsTheImage : Prop :=
  ∀ image seed params,
    (image.length ≤ 3584 → ∃ t, create image seed params = .next t ∧ t.pc = 0x200 ∧
      t.rng = Config.rngInit seed ∧ t.params = params ∧
      (∀ k, t.reg k = 0) ∧ t.i = 0 ∧ t.dt = 0 ∧ t.st = 0 ∧ t.stack = [] ∧ t.key = none ∧
      (∀ r b, fbByte t.fb r b = 0) ∧
      (∀ k b, image[k]? = some b → t.byte (0x200 + k) = b) ∧
      (∀ a, 0x200 + image.length ≤ a → t.byte a = 0) ∧
      ∀ a, t.byte a.val = Config.reservedImage a) ∧
    (image.length > 3584 → create image seed params = .refused .imageTooLong)

/-- The host's two writes: `decrement_timers` counts each timer down by one and stops at 0 (60_exceptions.md
section 3, decision D26); `set_key_pressed` sets the key to none or to a value 0..15 and is refused above 15:
such a call has no step, and no schedule that holds one has a run (60_exceptions.md section 4, decision D33).
Neither changes anything else. -/
def Obligations.HostWritesOnlyTimersAndKey : Prop :=
  ∀ s : State,
    decrementTimers s = { s with dt := (decrementTimers s).dt, st := (decrementTimers s).st } ∧
    (decrementTimers s).dt.toNat = s.dt.toNat - 1 ∧ (decrementTimers s).st.toNat = s.st.toNat - 1 ∧
    setKeyPressed none s = .next { s with key := none } ∧
    (∀ n, n ≤ 15 → ∃ k : Key, k.toNat = n ∧ setKeyPressed (some n) s = .next { s with key := some k }) ∧
    ∀ n, n > 15 → setKeyPressed (some n) s = .refused .keyOutOfRange ∧
      HostCall.apply (.setKeyPressed (some n)) s = .error .keyOutOfRange ∧
      ∀ calls, .setKeyPressed (some n) ∈ calls → runSchedule calls s = .error .keyOutOfRange
end

