-- ==== Sys2Proof/Laws/Compositor.lean ====
section
/-! SUPPORT. Bytes of the framebuffer: a read after a write, the two bytes of a blit (spec
44_display.md R112, R114). -/

namespace Sys2Proof.Machine

theorem fbByte_setFbByte (fb : Framebuffer) (r r' : Fin 32) (b b' : Fin 8) (v : Byte) :
    fbByte (setFbByte fb r b v) r' b' = if r' = r ∧ b' = b then v else fbByte fb r' b' := by
  unfold fbByte setFbByte
  rw [Vector.getElem_set]
  by_cases h : r' = r ∧ b' = b
  · obtain ⟨rfl, rfl⟩ := h; simp
  · have : ¬ r.val * 8 + b.val = r'.val * 8 + b'.val := by
      intro e; apply h; constructor <;> apply Fin.ext <;> omega
    simp [h, this]

/-- Two framebuffers with the same bytes are the same. -/
theorem fb_ext {f g : Framebuffer} (h : ∀ r b, fbByte f r b = fbByte g r b) : f = g := by
  apply Vector.ext
  intro n hn
  have := h ⟨n / 8, by omega⟩ ⟨n % 8, by omega⟩
  simp only [fbByte] at this
  have e : n / 8 * 8 + n % 8 = n := by omega
  simpa [e] using this

/-- The two bytes of a blit are different (R114). -/
theorem blitByte_ne (b : Fin 8) : b + 1 ≠ b := by
  revert b; decide

/-- What each byte holds after a blit (R114). -/
theorem fbByte_blit (fb : Framebuffer) (row r : Fin 32) (xo : Fin 64) (sprite : Byte) (b : Fin 8) :
    fbByte (blit fb row xo sprite).1 r b =
      if r = row ∧ b = blitByte xo then fbByte fb r b ^^^ blitHi xo sprite
      else if r = row ∧ b = blitByte xo + 1 then fbByte fb r b ^^^ blitLo xo sprite
      else fbByte fb r b := by
  have hne := blitByte_ne (blitByte xo)
  simp only [blit, fbByte_setFbByte]
  by_cases h0 : r = row ∧ b = blitByte xo
  · obtain ⟨rfl, rfl⟩ := h0
    simp [hne.symm]
  · by_cases h1 : r = row ∧ b = blitByte xo + 1
    · obtain ⟨rfl, rfl⟩ := h1
      simp
    · simp [h0, h1]

@[simp] theorem fbByte_clearFb (r : Fin 32) (b : Fin 8) : fbByte clearFb r b = 0 := by
  simp [fbByte, clearFb]

@[simp] theorem pixel_clearFb (c : Fin 64) (r : Fin 32) : pixel clearFb c r = false := by
  simp [pixel]

end Sys2Proof.Machine
end

