-- ==== Sys2Proof/Laws/Decode.lean ====
section
/-! SUPPORT. Words as numbers, the fields of a word of each format, and a word from its fields (spec
30_encoding.md R50 to R56). -/

namespace Sys2Proof

theorem toNat_append {m n : Nat} (a : BitVec m) (b : BitVec n) :
    (a ++ b).toNat = a.toNat * 2 ^ n + b.toNat := by
  rw [BitVec.toNat_append, ← Nat.shiftLeft_add_eq_or_of_lt b.isLt, Nat.shiftLeft_eq]

theorem toNat_wordNNN (f : Nibble) (nnn : Addr) :
    (wordNNN f nnn).toNat = f.toNat * 0x1000 + nnn.toNat := toNat_append f nnn

theorem toNat_wordXKK (f : Nibble) (x : RegIdx) (kk : Byte) :
    (wordXKK f x kk).toNat = f.toNat * 0x1000 + x.toNat * 0x100 + kk.toNat := by
  have h : (wordXKK f x kk).toNat = (f ++ x).toNat * 2 ^ 8 + kk.toNat := toNat_append (f ++ x) kk
  rw [h, toNat_append]; omega

theorem toNat_wordXYN (f : Nibble) (x y : RegIdx) (n : Nibble) :
    (wordXYN f x y n).toNat = f.toNat * 0x1000 + x.toNat * 0x100 + y.toNat * 0x10 + n.toNat := by
  have h : (wordXYN f x y n).toNat = (f ++ x ++ y).toNat * 2 ^ 4 + n.toNat :=
    toNat_append (f ++ x ++ y) n
  rw [h, toNat_append, toNat_append]; omega

theorem toNat_wordOfBytes (hi lo : Byte) :
    (wordOfBytes hi lo).toNat = hi.toNat * 0x100 + lo.toNat := toNat_append hi lo

theorem toNat_fieldF (w : Word) : (fieldF w).toNat = w.toNat / 0x1000 := by
  simp only [fieldF, BitVec.extractLsb'_toNat, Nat.shiftRight_eq_div_pow]; omega
theorem toNat_fieldX (w : Word) : (fieldX w).toNat = w.toNat / 0x100 % 0x10 := by
  simp only [fieldX, BitVec.extractLsb'_toNat, Nat.shiftRight_eq_div_pow]
theorem toNat_fieldY (w : Word) : (fieldY w).toNat = w.toNat / 0x10 % 0x10 := by
  simp only [fieldY, BitVec.extractLsb'_toNat, Nat.shiftRight_eq_div_pow]
theorem toNat_fieldN (w : Word) : (fieldN w).toNat = w.toNat % 0x10 := by
  simp only [fieldN, BitVec.extractLsb'_toNat, Nat.shiftRight_eq_div_pow]; omega
theorem toNat_fieldKK (w : Word) : (fieldKK w).toNat = w.toNat % 0x100 := by
  simp only [fieldKK, BitVec.extractLsb'_toNat, Nat.shiftRight_eq_div_pow]; omega
theorem toNat_fieldNNN (w : Word) : (fieldNNN w).toNat = w.toNat % 0x1000 := by
  simp only [fieldNNN, BitVec.extractLsb'_toNat, Nat.shiftRight_eq_div_pow]; omega
theorem toNat_highByte (w : Word) : (highByte w).toNat = w.toNat / 0x100 := by
  simp only [highByte, BitVec.extractLsb'_toNat, Nat.shiftRight_eq_div_pow]; omega
theorem toNat_lowByte (w : Word) : (lowByte w).toNat = w.toNat % 0x100 := by
  simp only [lowByte, BitVec.extractLsb'_toNat, Nat.shiftRight_eq_div_pow]; omega

section Formats

variable (f n : Nibble) (x y : RegIdx) (kk : Byte) (nnn : Addr) (w : Word)

@[simp] theorem fieldF_wordNNN : fieldF (wordNNN f nnn) = f := by
  apply BitVec.eq_of_toNat_eq; rw [toNat_fieldF, toNat_wordNNN]; omega
@[simp] theorem fieldNNN_wordNNN : fieldNNN (wordNNN f nnn) = nnn := by
  apply BitVec.eq_of_toNat_eq; rw [toNat_fieldNNN, toNat_wordNNN]; omega
@[simp] theorem fieldF_wordXKK : fieldF (wordXKK f x kk) = f := by
  apply BitVec.eq_of_toNat_eq; rw [toNat_fieldF, toNat_wordXKK]; omega
@[simp] theorem fieldX_wordXKK : fieldX (wordXKK f x kk) = x := by
  apply BitVec.eq_of_toNat_eq; rw [toNat_fieldX, toNat_wordXKK]; omega
@[simp] theorem fieldKK_wordXKK : fieldKK (wordXKK f x kk) = kk := by
  apply BitVec.eq_of_toNat_eq; rw [toNat_fieldKK, toNat_wordXKK]; omega
@[simp] theorem fieldF_wordXYN : fieldF (wordXYN f x y n) = f := by
  apply BitVec.eq_of_toNat_eq; rw [toNat_fieldF, toNat_wordXYN]; omega
@[simp] theorem fieldX_wordXYN : fieldX (wordXYN f x y n) = x := by
  apply BitVec.eq_of_toNat_eq; rw [toNat_fieldX, toNat_wordXYN]; omega
@[simp] theorem fieldY_wordXYN : fieldY (wordXYN f x y n) = y := by
  apply BitVec.eq_of_toNat_eq; rw [toNat_fieldY, toNat_wordXYN]; omega
@[simp] theorem fieldN_wordXYN : fieldN (wordXYN f x y n) = n := by
  apply BitVec.eq_of_toNat_eq; rw [toNat_fieldN, toNat_wordXYN]; omega

/-- A word is its family and its address field. -/
theorem wordNNN_fields : wordNNN (fieldF w) (fieldNNN w) = w := by
  apply BitVec.eq_of_toNat_eq; rw [toNat_wordNNN, toNat_fieldF, toNat_fieldNNN]; omega
/-- A word is its family, its `x` and its `kk`. -/
theorem wordXKK_fields : wordXKK (fieldF w) (fieldX w) (fieldKK w) = w := by
  apply BitVec.eq_of_toNat_eq; rw [toNat_wordXKK, toNat_fieldF, toNat_fieldX, toNat_fieldKK]; omega
/-- A word is its four nibbles. -/
theorem wordXYN_fields : wordXYN (fieldF w) (fieldX w) (fieldY w) (fieldN w) = w := by
  apply BitVec.eq_of_toNat_eq
  rw [toNat_wordXYN, toNat_fieldF, toNat_fieldX, toNat_fieldY, toNat_fieldN]; omega
/-- A word is its two bytes in memory order. -/
@[simp] theorem wordOfBytes_bytes : wordOfBytes (highByte w) (lowByte w) = w := by
  apply BitVec.eq_of_toNat_eq; rw [toNat_wordOfBytes, toNat_highByte, toNat_lowByte]; omega

/-! Masking a format's word masks each field. -/

theorem wordNNN_and (f' : Nibble) (nnn' : Addr) :
    wordNNN f nnn &&& wordNNN f' nnn' = wordNNN (f &&& f') (nnn &&& nnn') := BitVec.and_append
theorem wordXKK_and (f' : Nibble) (x' : RegIdx) (kk' : Byte) :
    wordXKK f x kk &&& wordXKK f' x' kk' = wordXKK (f &&& f') (x &&& x') (kk &&& kk') := by
  have h : wordXKK f x kk &&& wordXKK f' x' kk' = ((f ++ x) &&& (f' ++ x')) ++ (kk &&& kk') :=
    BitVec.and_append
  rw [h, BitVec.and_append]; rfl
theorem wordXYN_and (f' : Nibble) (x' y' : RegIdx) (n' : Nibble) :
    wordXYN f x y n &&& wordXYN f' x' y' n' = wordXYN (f &&& f') (x &&& x') (y &&& y') (n &&& n') := by
  have h : wordXYN f x y n &&& wordXYN f' x' y' n' =
      ((f ++ x ++ y) &&& (f' ++ x' ++ y')) ++ (n &&& n') := BitVec.and_append
  rw [h, BitVec.and_append, BitVec.and_append]; rfl

end Formats

/-- The sixteen families. -/
theorem nibble_cases (f : Nibble) : f = 0x0#4 ∨ f = 0x1#4 ∨ f = 0x2#4 ∨ f = 0x3#4 ∨ f = 0x4#4 ∨
    f = 0x5#4 ∨ f = 0x6#4 ∨ f = 0x7#4 ∨ f = 0x8#4 ∨ f = 0x9#4 ∨ f = 0xA#4 ∨ f = 0xB#4 ∨ f = 0xC#4 ∨
    f = 0xD#4 ∨ f = 0xE#4 ∨ f = 0xF#4 := by
  revert f; decide

/-! What `decode` gives in each family (R66). -/

theorem decode_family0 {w : Word} (h : fieldF w = 0x0#4) : decode w =
    if w = 0x00E0#16 then .cls else if w = 0x00EE#16 then .ret else .sys (fieldNNN w) := by simp only [decode, h]
theorem decode_family1 {w : Word} (h : fieldF w = 0x1#4) : decode w =
    .jp (fieldNNN w) := by simp only [decode, h]
theorem decode_family2 {w : Word} (h : fieldF w = 0x2#4) : decode w =
    .call (fieldNNN w) := by simp only [decode, h]
theorem decode_family3 {w : Word} (h : fieldF w = 0x3#4) : decode w =
    .seImm (fieldX w) (fieldKK w) := by simp only [decode, h]
theorem decode_family4 {w : Word} (h : fieldF w = 0x4#4) : decode w =
    .sneImm (fieldX w) (fieldKK w) := by simp only [decode, h]
theorem decode_family5 {w : Word} (h : fieldF w = 0x5#4) : decode w =
    if fieldN w = 0 then .seReg (fieldX w) (fieldY w) else .unknown w := by simp only [decode, h]
theorem decode_family6 {w : Word} (h : fieldF w = 0x6#4) : decode w =
    .ldImm (fieldX w) (fieldKK w) := by simp only [decode, h]
theorem decode_family7 {w : Word} (h : fieldF w = 0x7#4) : decode w =
    .addImm (fieldX w) (fieldKK w) := by simp only [decode, h]
theorem decode_family8 {w : Word} (h : fieldF w = 0x8#4) : decode w =
    decodeFamily8 w := by simp only [decode, h]
theorem decode_family9 {w : Word} (h : fieldF w = 0x9#4) : decode w =
    if fieldN w = 0 then .sneReg (fieldX w) (fieldY w) else .unknown w := by simp only [decode, h]
theorem decode_familyA {w : Word} (h : fieldF w = 0xA#4) : decode w =
    .ldI (fieldNNN w) := by simp only [decode, h]
theorem decode_familyB {w : Word} (h : fieldF w = 0xB#4) : decode w =
    .jpV0 (fieldNNN w) := by simp only [decode, h]
theorem decode_familyC {w : Word} (h : fieldF w = 0xC#4) : decode w =
    .rnd (fieldX w) (fieldKK w) := by simp only [decode, h]
theorem decode_familyD {w : Word} (h : fieldF w = 0xD#4) : decode w =
    .drw (fieldX w) (fieldY w) (fieldN w) := by simp only [decode, h]
theorem decode_familyE {w : Word} (h : fieldF w = 0xE#4) : decode w =
    decodeFamilyE w := by simp only [decode, h]
theorem decode_familyF {w : Word} (h : fieldF w = 0xF#4) : decode w =
    decodeFamilyF w := by unfold decode; rw [h]; rfl

/-! A word of a known family, from the operands read out of it: what `encode` writes back. -/

theorem wordNNN_of_family {w : Word} {f : Nibble} (h : fieldF w = f) : wordNNN f (fieldNNN w) = w := by
  subst h; exact wordNNN_fields w
theorem wordXKK_of_family {w : Word} {f : Nibble} {kk : Byte} (h : fieldF w = f) (hk : fieldKK w = kk) :
    wordXKK f (fieldX w) kk = w := by
  subst h hk; exact wordXKK_fields w
theorem wordXYN_of_family {w : Word} {f n : Nibble} (h : fieldF w = f) (hn : fieldN w = n) :
    wordXYN f (fieldX w) (fieldY w) n = w := by
  subst h hn; exact wordXYN_fields w

end Sys2Proof
end

