-- ==== Sys2Proof/Laws/State.lean ====
section
/-! SUPPORT. What each update of the state leaves in each field, and what reading a register gives after
writing one. -/

namespace Sys2Proof.Machine

@[simp] theorem State.setReg_i (s : State) (x : RegIdx) (b : Byte) : (s.setReg x b).i = s.i := rfl
@[simp] theorem State.setReg_pc (s : State) (x : RegIdx) (b : Byte) : (s.setReg x b).pc = s.pc := rfl
@[simp] theorem State.setReg_dt (s : State) (x : RegIdx) (b : Byte) : (s.setReg x b).dt = s.dt := rfl
@[simp] theorem State.setReg_st (s : State) (x : RegIdx) (b : Byte) : (s.setReg x b).st = s.st := rfl
@[simp] theorem State.setReg_stack (s : State) (x : RegIdx) (b : Byte) : (s.setReg x b).stack = s.stack := rfl
@[simp] theorem State.setReg_key (s : State) (x : RegIdx) (b : Byte) : (s.setReg x b).key = s.key := rfl
@[simp] theorem State.setReg_rng (s : State) (x : RegIdx) (b : Byte) : (s.setReg x b).rng = s.rng := rfl
@[simp] theorem State.setReg_fb (s : State) (x : RegIdx) (b : Byte) : (s.setReg x b).fb = s.fb := rfl
@[simp] theorem State.setReg_mem (s : State) (x : RegIdx) (b : Byte) : (s.setReg x b).mem = s.mem := rfl
@[simp] theorem State.setReg_params (s : State) (x : RegIdx) (b : Byte) : (s.setReg x b).params = s.params := rfl
@[simp] theorem State.byte_setReg (s : State) (x : RegIdx) (b : Byte) (a : Nat) : (s.setReg x b).byte a = s.byte a := rfl

@[simp] theorem State.setI_v (s : State) (w : Word) : (s.setI w).v = s.v := rfl
@[simp] theorem State.setI_i (s : State) (w : Word) : (s.setI w).i = w := rfl
@[simp] theorem State.setI_pc (s : State) (w : Word) : (s.setI w).pc = s.pc := rfl
@[simp] theorem State.setI_dt (s : State) (w : Word) : (s.setI w).dt = s.dt := rfl
@[simp] theorem State.setI_st (s : State) (w : Word) : (s.setI w).st = s.st := rfl
@[simp] theorem State.setI_stack (s : State) (w : Word) : (s.setI w).stack = s.stack := rfl
@[simp] theorem State.setI_key (s : State) (w : Word) : (s.setI w).key = s.key := rfl
@[simp] theorem State.setI_rng (s : State) (w : Word) : (s.setI w).rng = s.rng := rfl
@[simp] theorem State.setI_fb (s : State) (w : Word) : (s.setI w).fb = s.fb := rfl
@[simp] theorem State.setI_mem (s : State) (w : Word) : (s.setI w).mem = s.mem := rfl
@[simp] theorem State.setI_params (s : State) (w : Word) : (s.setI w).params = s.params := rfl
@[simp] theorem State.reg_setI (s : State) (w : Word) (k : RegIdx) : (s.setI w).reg k = s.reg k := rfl
@[simp] theorem State.byte_setI (s : State) (w : Word) (a : Nat) : (s.setI w).byte a = s.byte a := rfl

@[simp] theorem State.setPc_v (s : State) (w : Word) : (s.setPc w).v = s.v := rfl
@[simp] theorem State.setPc_i (s : State) (w : Word) : (s.setPc w).i = s.i := rfl
@[simp] theorem State.setPc_pc (s : State) (w : Word) : (s.setPc w).pc = w := rfl
@[simp] theorem State.setPc_dt (s : State) (w : Word) : (s.setPc w).dt = s.dt := rfl
@[simp] theorem State.setPc_st (s : State) (w : Word) : (s.setPc w).st = s.st := rfl
@[simp] theorem State.setPc_stack (s : State) (w : Word) : (s.setPc w).stack = s.stack := rfl
@[simp] theorem State.setPc_key (s : State) (w : Word) : (s.setPc w).key = s.key := rfl
@[simp] theorem State.setPc_rng (s : State) (w : Word) : (s.setPc w).rng = s.rng := rfl
@[simp] theorem State.setPc_fb (s : State) (w : Word) : (s.setPc w).fb = s.fb := rfl
@[simp] theorem State.setPc_mem (s : State) (w : Word) : (s.setPc w).mem = s.mem := rfl
@[simp] theorem State.setPc_params (s : State) (w : Word) : (s.setPc w).params = s.params := rfl
@[simp] theorem State.reg_setPc (s : State) (w : Word) (k : RegIdx) : (s.setPc w).reg k = s.reg k := rfl
@[simp] theorem State.byte_setPc (s : State) (w : Word) (a : Nat) : (s.setPc w).byte a = s.byte a := rfl

@[simp] theorem State.setDt_v (s : State) (b : Byte) : (s.setDt b).v = s.v := rfl
@[simp] theorem State.setDt_i (s : State) (b : Byte) : (s.setDt b).i = s.i := rfl
@[simp] theorem State.setDt_pc (s : State) (b : Byte) : (s.setDt b).pc = s.pc := rfl
@[simp] theorem State.setDt_dt (s : State) (b : Byte) : (s.setDt b).dt = b := rfl
@[simp] theorem State.setDt_st (s : State) (b : Byte) : (s.setDt b).st = s.st := rfl
@[simp] theorem State.setDt_stack (s : State) (b : Byte) : (s.setDt b).stack = s.stack := rfl
@[simp] theorem State.setDt_key (s : State) (b : Byte) : (s.setDt b).key = s.key := rfl
@[simp] theorem State.setDt_rng (s : State) (b : Byte) : (s.setDt b).rng = s.rng := rfl
@[simp] theorem State.setDt_fb (s : State) (b : Byte) : (s.setDt b).fb = s.fb := rfl
@[simp] theorem State.setDt_mem (s : State) (b : Byte) : (s.setDt b).mem = s.mem := rfl
@[simp] theorem State.setDt_params (s : State) (b : Byte) : (s.setDt b).params = s.params := rfl
@[simp] theorem State.reg_setDt (s : State) (b : Byte) (k : RegIdx) : (s.setDt b).reg k = s.reg k := rfl
@[simp] theorem State.byte_setDt (s : State) (b : Byte) (a : Nat) : (s.setDt b).byte a = s.byte a := rfl

@[simp] theorem State.setSt_v (s : State) (b : Byte) : (s.setSt b).v = s.v := rfl
@[simp] theorem State.setSt_i (s : State) (b : Byte) : (s.setSt b).i = s.i := rfl
@[simp] theorem State.setSt_pc (s : State) (b : Byte) : (s.setSt b).pc = s.pc := rfl
@[simp] theorem State.setSt_dt (s : State) (b : Byte) : (s.setSt b).dt = s.dt := rfl
@[simp] theorem State.setSt_st (s : State) (b : Byte) : (s.setSt b).st = b := rfl
@[simp] theorem State.setSt_stack (s : State) (b : Byte) : (s.setSt b).stack = s.stack := rfl
@[simp] theorem State.setSt_key (s : State) (b : Byte) : (s.setSt b).key = s.key := rfl
@[simp] theorem State.setSt_rng (s : State) (b : Byte) : (s.setSt b).rng = s.rng := rfl
@[simp] theorem State.setSt_fb (s : State) (b : Byte) : (s.setSt b).fb = s.fb := rfl
@[simp] theorem State.setSt_mem (s : State) (b : Byte) : (s.setSt b).mem = s.mem := rfl
@[simp] theorem State.setSt_params (s : State) (b : Byte) : (s.setSt b).params = s.params := rfl
@[simp] theorem State.reg_setSt (s : State) (b : Byte) (k : RegIdx) : (s.setSt b).reg k = s.reg k := rfl
@[simp] theorem State.byte_setSt (s : State) (b : Byte) (a : Nat) : (s.setSt b).byte a = s.byte a := rfl

@[simp] theorem State.setStack_v (s : State) (l : List Word) : (s.setStack l).v = s.v := rfl
@[simp] theorem State.setStack_i (s : State) (l : List Word) : (s.setStack l).i = s.i := rfl
@[simp] theorem State.setStack_pc (s : State) (l : List Word) : (s.setStack l).pc = s.pc := rfl
@[simp] theorem State.setStack_dt (s : State) (l : List Word) : (s.setStack l).dt = s.dt := rfl
@[simp] theorem State.setStack_st (s : State) (l : List Word) : (s.setStack l).st = s.st := rfl
@[simp] theorem State.setStack_stack (s : State) (l : List Word) : (s.setStack l).stack = l := rfl
@[simp] theorem State.setStack_key (s : State) (l : List Word) : (s.setStack l).key = s.key := rfl
@[simp] theorem State.setStack_rng (s : State) (l : List Word) : (s.setStack l).rng = s.rng := rfl
@[simp] theorem State.setStack_fb (s : State) (l : List Word) : (s.setStack l).fb = s.fb := rfl
@[simp] theorem State.setStack_mem (s : State) (l : List Word) : (s.setStack l).mem = s.mem := rfl
@[simp] theorem State.setStack_params (s : State) (l : List Word) : (s.setStack l).params = s.params := rfl
@[simp] theorem State.reg_setStack (s : State) (l : List Word) (k : RegIdx) : (s.setStack l).reg k = s.reg k := rfl
@[simp] theorem State.byte_setStack (s : State) (l : List Word) (a : Nat) : (s.setStack l).byte a = s.byte a := rfl

@[simp] theorem State.setKey_v (s : State) (k : Option Key) : (s.setKey k).v = s.v := rfl
@[simp] theorem State.setKey_i (s : State) (k : Option Key) : (s.setKey k).i = s.i := rfl
@[simp] theorem State.setKey_pc (s : State) (k : Option Key) : (s.setKey k).pc = s.pc := rfl
@[simp] theorem State.setKey_dt (s : State) (k : Option Key) : (s.setKey k).dt = s.dt := rfl
@[simp] theorem State.setKey_st (s : State) (k : Option Key) : (s.setKey k).st = s.st := rfl
@[simp] theorem State.setKey_stack (s : State) (k : Option Key) : (s.setKey k).stack = s.stack := rfl
@[simp] theorem State.setKey_key (s : State) (k : Option Key) : (s.setKey k).key = k := rfl
@[simp] theorem State.setKey_rng (s : State) (k : Option Key) : (s.setKey k).rng = s.rng := rfl
@[simp] theorem State.setKey_fb (s : State) (k : Option Key) : (s.setKey k).fb = s.fb := rfl
@[simp] theorem State.setKey_mem (s : State) (k : Option Key) : (s.setKey k).mem = s.mem := rfl
@[simp] theorem State.setKey_params (s : State) (k : Option Key) : (s.setKey k).params = s.params := rfl
@[simp] theorem State.reg_setKey (s : State) (k : Option Key) (r : RegIdx) : (s.setKey k).reg r = s.reg r := rfl
@[simp] theorem State.byte_setKey (s : State) (k : Option Key) (a : Nat) : (s.setKey k).byte a = s.byte a := rfl

@[simp] theorem State.setRng_v (s : State) (r : Rng) : (s.setRng r).v = s.v := rfl
@[simp] theorem State.setRng_i (s : State) (r : Rng) : (s.setRng r).i = s.i := rfl
@[simp] theorem State.setRng_pc (s : State) (r : Rng) : (s.setRng r).pc = s.pc := rfl
@[simp] theorem State.setRng_dt (s : State) (r : Rng) : (s.setRng r).dt = s.dt := rfl
@[simp] theorem State.setRng_st (s : State) (r : Rng) : (s.setRng r).st = s.st := rfl
@[simp] theorem State.setRng_stack (s : State) (r : Rng) : (s.setRng r).stack = s.stack := rfl
@[simp] theorem State.setRng_key (s : State) (r : Rng) : (s.setRng r).key = s.key := rfl
@[simp] theorem State.setRng_rng (s : State) (r : Rng) : (s.setRng r).rng = r := rfl
@[simp] theorem State.setRng_fb (s : State) (r : Rng) : (s.setRng r).fb = s.fb := rfl
@[simp] theorem State.setRng_mem (s : State) (r : Rng) : (s.setRng r).mem = s.mem := rfl
@[simp] theorem State.setRng_params (s : State) (r : Rng) : (s.setRng r).params = s.params := rfl
@[simp] theorem State.reg_setRng (s : State) (r : Rng) (k : RegIdx) : (s.setRng r).reg k = s.reg k := rfl
@[simp] theorem State.byte_setRng (s : State) (r : Rng) (a : Nat) : (s.setRng r).byte a = s.byte a := rfl

@[simp] theorem State.setFb_v (s : State) (f : Framebuffer) : (s.setFb f).v = s.v := rfl
@[simp] theorem State.setFb_i (s : State) (f : Framebuffer) : (s.setFb f).i = s.i := rfl
@[simp] theorem State.setFb_pc (s : State) (f : Framebuffer) : (s.setFb f).pc = s.pc := rfl
@[simp] theorem State.setFb_dt (s : State) (f : Framebuffer) : (s.setFb f).dt = s.dt := rfl
@[simp] theorem State.setFb_st (s : State) (f : Framebuffer) : (s.setFb f).st = s.st := rfl
@[simp] theorem State.setFb_stack (s : State) (f : Framebuffer) : (s.setFb f).stack = s.stack := rfl
@[simp] theorem State.setFb_key (s : State) (f : Framebuffer) : (s.setFb f).key = s.key := rfl
@[simp] theorem State.setFb_rng (s : State) (f : Framebuffer) : (s.setFb f).rng = s.rng := rfl
@[simp] theorem State.setFb_fb (s : State) (f : Framebuffer) : (s.setFb f).fb = f := rfl
@[simp] theorem State.setFb_mem (s : State) (f : Framebuffer) : (s.setFb f).mem = s.mem := rfl
@[simp] theorem State.setFb_params (s : State) (f : Framebuffer) : (s.setFb f).params = s.params := rfl
@[simp] theorem State.reg_setFb (s : State) (f : Framebuffer) (k : RegIdx) : (s.setFb f).reg k = s.reg k := rfl
@[simp] theorem State.byte_setFb (s : State) (f : Framebuffer) (a : Nat) : (s.setFb f).byte a = s.byte a := rfl

@[simp] theorem State.setMem_v (s : State) (m : Memory) : (s.setMem m).v = s.v := rfl
@[simp] theorem State.setMem_i (s : State) (m : Memory) : (s.setMem m).i = s.i := rfl
@[simp] theorem State.setMem_pc (s : State) (m : Memory) : (s.setMem m).pc = s.pc := rfl
@[simp] theorem State.setMem_dt (s : State) (m : Memory) : (s.setMem m).dt = s.dt := rfl
@[simp] theorem State.setMem_st (s : State) (m : Memory) : (s.setMem m).st = s.st := rfl
@[simp] theorem State.setMem_stack (s : State) (m : Memory) : (s.setMem m).stack = s.stack := rfl
@[simp] theorem State.setMem_key (s : State) (m : Memory) : (s.setMem m).key = s.key := rfl
@[simp] theorem State.setMem_rng (s : State) (m : Memory) : (s.setMem m).rng = s.rng := rfl
@[simp] theorem State.setMem_fb (s : State) (m : Memory) : (s.setMem m).fb = s.fb := rfl
@[simp] theorem State.setMem_mem (s : State) (m : Memory) : (s.setMem m).mem = m := rfl
@[simp] theorem State.setMem_params (s : State) (m : Memory) : (s.setMem m).params = s.params := rfl
@[simp] theorem State.reg_setMem (s : State) (m : Memory) (k : RegIdx) : (s.setMem m).reg k = s.reg k := rfl

theorem State.setFlag_eq (s : State) (f : BitVec 1) : s.setFlag f = s.setReg vf (f.zeroExtend 8) := rfl

theorem State.advance_eq (s : State) : s.advance = s.setPc (s.pc + 2) := rfl

/-- Reading a register after writing one. -/
theorem State.reg_setReg (s : State) (x k : RegIdx) (b : Byte) :
    (s.setReg x b).reg k = if k = x then b else s.reg k := by
  by_cases h : k = x
  · subst h; simp [State.reg, State.setReg]
  · have h' : x.toNat ≠ k.toNat := fun e => h (BitVec.eq_of_toNat_eq e.symm)
    simp [State.reg, State.setReg, h, h']

@[simp] theorem State.reg_setReg_self (s : State) (x : RegIdx) (b : Byte) : (s.setReg x b).reg x = b := by
  simp [State.reg_setReg]

/-- Two register files that read the same are the same. -/
theorem State.v_ext {s t : State} (h : ∀ k, s.reg k = t.reg k) : s.v = t.v := by
  apply Vector.ext
  intro n hn
  have := h (BitVec.ofNat 4 n)
  simpa [State.reg, Nat.mod_eq_of_lt hn] using this

@[simp] theorem State.flag_setFlag (s : State) (f : BitVec 1) :
    (s.setFlag f).reg vf = f.zeroExtend 8 := by simp [State.setFlag]

theorem State.reg_setFlag (s : State) (f : BitVec 1) (k : RegIdx) :
    (s.setFlag f).reg k = if k = vf then f.zeroExtend 8 else s.reg k := State.reg_setReg ..

end Sys2Proof.Machine
end

