-- ==== Sys2Proof/Laws/HostOps.lean ====
section
/-! SUPPORT. What each host call can do (spec 60_exceptions.md R137 to R141, 70_reset_and_hazards.md R146). -/

namespace Sys2Proof.Machine

/-- Everything `create` can answer (R146). -/
theorem create_cases (image : List Byte) (seed : Seed) (params : Params) :
    (image.length ≤ 3584 ∧ create image seed params = .next
      { v := Vector.replicate 16 0, i := 0, pc := 0x200, dt := 0, st := 0, stack := [], key := none
        rng := Config.rngInit seed, fb := clearFb, mem := Memory.writeList [] 0x200 image, params := params }) ∨
      (3584 < image.length ∧ create image seed params = .refused .imageTooLong) := by
  by_cases h : image.length ≤ 3584
  · exact .inl ⟨h, if_pos h⟩
  · exact .inr ⟨by omega, if_neg h⟩

/-- Everything `set_key_pressed` can answer (R138). -/
theorem setKeyPressed_cases (k : Option Nat) (s : State) :
    (∃ key, setKeyPressed k s = .next (s.setKey key)) ∨
      ∃ n, k = some n ∧ 15 < n ∧ setKeyPressed k s = .refused .keyOutOfRange := by
  cases k with
  | none => exact .inl ⟨none, rfl⟩
  | some n =>
    by_cases h : n ≤ 15
    · exact .inl ⟨some (BitVec.ofNat 4 n), if_pos h⟩
    · exact .inr ⟨n, rfl, by omega, if_neg h⟩

/-- A refused key has no step (R138). -/
theorem apply_setKeyPressed_of_gt {n : Nat} (h : 15 < n) (s : State) :
    HostCall.apply (.setKeyPressed (some n)) s = .error .keyOutOfRange := by
  have : setKeyPressed (some n) s = .refused .keyOutOfRange := if_neg (by omega)
  simp only [HostCall.apply, this, HostStep.ofResult]

@[simp] theorem apply_decrementTimers (s : State) :
    HostCall.apply .decrementTimers s = .ok (decrementTimers s, .done) := rfl

@[simp] theorem runSchedule_nil (s : State) : runSchedule [] s = .ok s := rfl

/-- A call with a step runs, then the rest of the schedule. -/
theorem runSchedule_cons_ok {c : HostCall} {s t : State} {r : HostReply} (h : c.apply s = .ok (t, r))
    (cs : List HostCall) : runSchedule (c :: cs) s = runSchedule cs t := by
  simp only [runSchedule, h]

/-- A call without a step ends the run. -/
theorem runSchedule_cons_error {c : HostCall} {s : State} {r : Refusal} (h : c.apply s = .error r)
    (cs : List HostCall) : runSchedule (c :: cs) s = .error r := by
  simp only [runSchedule, h]

end Sys2Proof.Machine
end

