-- ==== Sys2Proof/Laws/Memory.lean ====
section
/-! SUPPORT. Memory: a read after a write, the canonical form, ranges of bytes (spec 20_memory.md R35 to
R37). -/

namespace Sys2Proof.Machine

/-- What the head entry of a memory reads as, where it may be left out. -/
theorem Memory.read_cons (a b : Nat) (v : Byte) (rest : Memory)
    (h : v = unlistedByte a → Memory.read rest a = unlistedByte a) :
    Memory.read (Memory.cons a v rest) b = if b = a then v else Memory.read rest b := by
  unfold Memory.cons
  split
  · rename_i hv
    split
    · rename_i hb; subst hb; rw [h hv, hv]
    · rfl
  · rfl

/-- An address below every listed one is unlisted. -/
theorem Memory.read_below (m : Memory) (a : Nat) (h : ∀ p ∈ m, a < p.1) :
    Memory.read m a = unlistedByte a := by
  induction m with
  | nil => rfl
  | cons p rest ih =>
    have hp := h p (by simp)
    have : a ≠ p.1 := by omega
    simp [Memory.read, this, ih (fun q hq => h q (by simp [hq]))]

/-- A write leaves every other address alone, whatever the memory's form. -/
theorem Memory.read_write_other (m : Memory) (a b : Nat) (v : Byte) (h : b ≠ a) :
    Memory.read (Memory.write m a v) b = Memory.read m b := by
  have drop (rest : Memory) : Memory.read (Memory.cons a v rest) b = Memory.read rest b := by
    unfold Memory.cons
    split <;> simp [Memory.read, h]
  induction m with
  | nil => exact drop []
  | cons p rest ih =>
    simp only [Memory.write]
    split
    · exact drop _
    · split
      · rename_i e
        rw [drop]
        simp [Memory.read, ← e, h]
      · simp only [Memory.read]
        rw [ih]

/-- A read after a write to the same address gives what was written. -/
theorem Memory.read_write_same (m : Memory) (a : Nat) (v : Byte)
    (h : m.Pairwise (fun p q => p.1 < q.1)) : Memory.read (Memory.write m a v) a = v := by
  induction m with
  | nil =>
    rw [Memory.write, Memory.read_cons a a v [] (fun _ => rfl)]
    simp
  | cons p rest ih =>
    have hp := List.pairwise_cons.1 h
    simp only [Memory.write]
    split
    · rename_i lt
      rw [Memory.read_cons _ _ _ _ (fun _ => Memory.read_below _ _ ?_)]
      · simp
      · intro q hq
        rcases List.mem_cons.1 hq with rfl | hq
        · exact lt
        · have := hp.1 q hq; omega
    · split
      · rename_i e
        rw [Memory.read_cons _ _ _ _ (fun _ => Memory.read_below _ _ ?_)]
        · simp
        · intro q hq; have := hp.1 q hq; omega
      · rename_i ne
        simp [Memory.read, ne, ih hp.2]

theorem Memory.read_write (m : Memory) (a b : Nat) (v : Byte) (h : m.Pairwise (fun p q => p.1 < q.1)) :
    Memory.read (Memory.write m a v) b = if b = a then v else Memory.read m b := by
  split
  · rename_i e; rw [e, Memory.read_write_same m a v h]
  · rename_i e; exact Memory.read_write_other m a b v e

theorem Memory.mem_cons {a : Nat} {v : Byte} {rest : Memory} {p : Host.Cell}
    (h : p ∈ Memory.cons a v rest) : (p = (a, v) ∧ v ≠ unlistedByte a) ∨ p ∈ rest := by
  unfold Memory.cons at h
  split at h
  · exact .inr h
  · rename_i hv
    rcases List.mem_cons.1 h with e | hp
    · exact .inl ⟨e, hv⟩
    · exact .inr hp

theorem Memory.mem_write {m : Memory} {a : Nat} {v : Byte} {p : Host.Cell}
    (h : p ∈ Memory.write m a v) : (p = (a, v) ∧ v ≠ unlistedByte a) ∨ p ∈ m := by
  induction m with
  | nil => exact Memory.mem_cons h
  | cons q rest ih =>
    simp only [Memory.write] at h
    split at h
    · exact Memory.mem_cons h
    · split at h
      · rcases Memory.mem_cons h with h | h
        · exact .inl h
        · exact .inr (by simp [h])
      · rcases List.mem_cons.1 h with e | h
        · exact .inr (by simp [e])
        · rcases ih h with h | h
          · exact .inl h
          · exact .inr (by simp [h])

theorem Memory.pairwise_cons {a : Nat} {v : Byte} {rest : Memory}
    (h : rest.Pairwise (fun p q => p.1 < q.1)) (ha : ∀ q ∈ rest, a < q.1) :
    (Memory.cons a v rest).Pairwise (fun p q => p.1 < q.1) := by
  unfold Memory.cons
  split
  · exact h
  · exact List.pairwise_cons.2 ⟨fun q hq => ha q hq, h⟩

theorem Memory.pairwise_write (m : Memory) (a : Nat) (v : Byte)
    (h : m.Pairwise (fun p q => p.1 < q.1)) :
    (Memory.write m a v).Pairwise (fun p q => p.1 < q.1) := by
  induction m with
  | nil => exact Memory.pairwise_cons h (by simp)
  | cons p rest ih =>
    have hp := List.pairwise_cons.1 h
    simp only [Memory.write]
    split
    · rename_i lt
      refine Memory.pairwise_cons h (fun q hq => ?_)
      rcases List.mem_cons.1 hq with rfl | hq
      · exact lt
      · have := hp.1 q hq; omega
    · split
      · rename_i e
        exact Memory.pairwise_cons hp.2 (fun q hq => by have := hp.1 q hq; omega)
      · rename_i nlt ne
        refine List.pairwise_cons.2 ⟨fun q hq => ?_, ih hp.2⟩
        rcases Memory.mem_write hq with ⟨e, _⟩ | hq
        · rw [e]; show p.1 < a; omega
        · exact hp.1 q hq

/-- A write inside memory keeps the canonical form. -/
theorem Memory.write_keeps_wf {m : Memory} {a : Nat} (v : Byte) (h : Memory.wf m) (ha : a < memSize) :
    Memory.wf (Memory.write m a v) := by
  refine ⟨Memory.pairwise_write m a v h.1, fun p hp => ?_⟩
  rcases Memory.mem_write hp with ⟨e, hv⟩ | hp
  · rw [e]; exact ⟨ha, hv⟩
  · exact h.2 p hp

/-- Writing a list inside memory keeps the canonical form. -/
theorem Memory.writeList_keeps_wf {m : Memory} {a : Nat} (vs : List Byte) (h : Memory.wf m)
    (ha : a + vs.length ≤ memSize) : Memory.wf (Memory.writeList m a vs) := by
  induction vs generalizing m a with
  | nil => exact h
  | cons v vs ih =>
    simp only [List.length_cons] at ha
    exact ih (Memory.write_keeps_wf v h (by omega)) (by omega)

theorem Memory.pairwise_writeList (m : Memory) (a : Nat) (vs : List Byte)
    (h : m.Pairwise (fun p q => p.1 < q.1)) :
    (Memory.writeList m a vs).Pairwise (fun p q => p.1 < q.1) := by
  induction vs generalizing m a with
  | nil => exact h
  | cons v vs ih => exact ih _ _ (Memory.pairwise_write m a v h)

/-- Outside the bytes written nothing changes, whatever the memory's form. -/
theorem Memory.read_writeList_outside (m : Memory) (a b : Nat) (vs : List Byte)
    (h : b < a ∨ a + vs.length ≤ b) :
    Memory.read (Memory.writeList m a vs) b = Memory.read m b := by
  induction vs generalizing m a with
  | nil => rfl
  | cons v vs ih =>
    simp only [List.length_cons] at h
    rw [Memory.writeList, ih _ _ (by omega), Memory.read_write_other _ _ _ _ (by omega)]

/-- Inside them each byte is the one written. -/
theorem Memory.read_writeList_inside (m : Memory) (a k : Nat) (vs : List Byte)
    (h : m.Pairwise (fun p q => p.1 < q.1)) (hk : k < vs.length) :
    Memory.read (Memory.writeList m a vs) (a + k) = vs[k] := by
  induction vs generalizing m a k with
  | nil => simp at hk
  | cons v vs ih =>
    rw [Memory.writeList]
    cases k with
    | zero =>
      rw [Memory.read_writeList_outside _ _ _ _ (by omega), Nat.add_zero,
        Memory.read_write_same _ _ _ h]
      rfl
    | succ k =>
      have := ih (Memory.write m a v) (a + 1) k (Memory.pairwise_write m a v h) (by simpa using hk)
      rw [show a + (k + 1) = a + 1 + k by omega, this]
      rfl

@[simp] theorem Memory.length_readList (m : Memory) (a n : Nat) : (Memory.readList m a n).length = n := by
  simp [Memory.readList]

@[simp] theorem Memory.getElem_readList (m : Memory) (a n k : Nat) (h : k < (Memory.readList m a n).length) :
    (Memory.readList m a n)[k] = Memory.read m (a + k) := by
  simp [Memory.readList]

/-- Everything `memRead` can answer (R36). -/
theorem memRead_cases (m : Memory) (a n : Nat) :
    (rangeLegal a n ∧ memRead m a n = .ok (Memory.readList m a n)) ∨
      (¬ rangeLegal a n ∧ memRead m a n = .error (outOfBounds a)) := by
  by_cases h : rangeLegal a n
  · exact .inl ⟨h, if_pos h⟩
  · exact .inr ⟨h, if_neg h⟩

/-- Everything `memWrite` can answer (R37). -/
theorem memWrite_cases (m : Memory) (a : Nat) (vs : List Byte) :
    (rangeLegal a vs.length ∧ memWrite m a vs = .ok (Memory.writeList m a vs)) ∨
      (¬ rangeLegal a vs.length ∧ memWrite m a vs = .error (outOfBounds a)) := by
  by_cases h : rangeLegal a vs.length
  · exact .inl ⟨h, if_pos h⟩
  · exact .inr ⟨h, if_neg h⟩

/-- A `MemWrite` that succeeds keeps the canonical form. -/
theorem memWrite_keeps_wf {m m' : Memory} {a : Nat} {vs : List Byte} (h : Memory.wf m)
    (e : memWrite m a vs = .ok m') : Memory.wf m' := by
  rcases memWrite_cases m a vs with ⟨hl, e'⟩ | ⟨_, e'⟩
  · rw [e'] at e
    cases e
    rcases hl with hl | hl
    · rw [List.length_eq_zero_iff.1 hl]; exact h
    · cases vs with
      | nil => exact h
      | cons v vs =>
        exact Memory.writeList_keeps_wf _ h (by simp only [memSize, List.length_cons] at hl ⊢; omega)
  · rw [e'] at e; cases e

/-- The memory at reset lists nothing and is canonical. -/
theorem State.reset_mem_wf : Memory.wf State.reset.mem :=
  ⟨List.Pairwise.nil, fun _ h => absurd h List.not_mem_nil⟩

@[simp] theorem State.byte_setMem (s : State) (m : Memory) (a : Nat) :
    (s.setMem m).byte a = Memory.read m a := rfl

@[simp] theorem length_regsUpTo (x : RegIdx) (s : State) : (regsUpTo x s).length = x.toNat + 1 := by
  simp [regsUpTo, bulkCount]

@[simp] theorem length_bcdDigits (v : Byte) : (bcdDigits v).length = 3 := rfl

theorem getElem_regsUpTo (x : RegIdx) (s : State) (k : Nat) (h : k < (regsUpTo x s).length) :
    (regsUpTo x s)[k] = s.reg (BitVec.ofNat 4 k) := by
  simp [regsUpTo]

/-- A bulk load writes registers only. -/
theorem loadRegsFrom_frame (k : Nat) (bs : List Byte) (s : State) :
    loadRegsFrom k bs s = { s with v := (loadRegsFrom k bs s).v } := by
  induction bs generalizing k s with
  | nil => rfl
  | cons b bs ih => rw [loadRegsFrom, ih]; rfl

/-- What a register holds after a bulk load from register `k` on. -/
theorem reg_loadRegsFrom (k : Nat) (bs : List Byte) (s : State) (r : RegIdx) (h : k + bs.length ≤ 16) :
    (loadRegsFrom k bs s).reg r =
      if r.toNat < k then s.reg r else (bs[r.toNat - k]?).getD (s.reg r) := by
  induction bs generalizing k s with
  | nil => simp [loadRegsFrom]
  | cons b bs ih =>
    simp only [List.length_cons] at h
    rw [loadRegsFrom, ih _ _ (by omega), State.reg_setReg]
    have hk : (BitVec.ofNat 4 k).toNat = k := by simp; omega
    by_cases hr : r = BitVec.ofNat 4 k
    · simp [hr, hk]
    · have hne : r.toNat ≠ k := fun e => hr (BitVec.eq_of_toNat_eq (by rw [hk, e]))
      simp only [hr, if_false]
      by_cases hlt : r.toNat < k
      · simp [hlt, show r.toNat < k + 1 by omega]
      · have e : r.toNat - k = (r.toNat - (k + 1)) + 1 := by omega
        rw [if_neg hlt, if_neg (by omega), e, List.getElem?_cons_succ]

end Sys2Proof.Machine
end

