-- ==== Sys2Proof/Laws/Ops.lean ====
section
/-! SUPPORT. What each shared operation can do: the call stack, fetch, the ways an instruction ends, the
operand values as numbers. -/

namespace Sys2Proof.Machine

/-- Everything `push` can answer (R81). -/
theorem push_cases (s : State) (a : Word) :
    (s.stack.length < s.stackCapacity ∧ push s a = .ok (s.setStack (a :: s.stack))) ∨
      (s.stackCapacity ≤ s.stack.length ∧ push s a = .error .stackOverflow) := by
  by_cases h : s.stack.length < s.stackCapacity
  · exact .inl ⟨h, if_pos h⟩
  · exact .inr ⟨by omega, if_neg h⟩

/-- Everything `pop` can answer (R79). -/
theorem pop_cases (s : State) :
    (∃ a rest, s.stack = a :: rest ∧ pop s = .ok (a, s.setStack rest)) ∨
      (s.stack = [] ∧ pop s = .error .stackUnderflow) := by
  unfold pop
  cases h : s.stack with
  | nil => exact .inr ⟨rfl, rfl⟩
  | cons a rest => exact .inl ⟨a, rest, rfl, rfl⟩

/-- Everything `fetch` can answer (R70). -/
theorem fetch_cases (s : State) :
    (fetchLegal s.pc ∧
        fetch s = .ok (wordOfBytes (s.byte s.pc.toNat) (s.byte (s.pc.toNat + 1)))) ∨
      (¬ fetchLegal s.pc ∧ fetch s = .error (.memoryOutOfBounds s.pc.toNat)) := by
  by_cases h : fetchLegal s.pc
  · exact .inl ⟨h, if_pos h⟩
  · exact .inr ⟨h, if_neg h⟩

/-- A tick that succeeds fetched, decoded and executed. -/
theorem tick_next {s : State} {i : Instr} {t : State} (h : tick s = .next (i, t)) :
    fetchLegal s.pc ∧ i = decode (wordOfBytes (s.byte s.pc.toNat) (s.byte (s.pc.toNat + 1))) ∧
      exec i s = .next t := by
  unfold tick at h
  rcases fetch_cases s with ⟨hl, e⟩ | ⟨_, e⟩
  · rw [e] at h
    simp only at h
    split at h <;> cases h
    exact ⟨hl, rfl, ‹_›⟩
  · rw [e] at h; cases h

/-- `skip_if` always completes and moves the pc only (R83). -/
theorem skipIf_eq (c : Bool) (s : State) :
    skipIf c s = .next (s.setPc (if c then s.pc + 4 else s.pc + 2)) := by
  cases c <;> rfl

theorem writeReg_eq (x : RegIdx) (b : Byte) (s : State) :
    writeReg x b s = .next ((s.setReg x b).setPc (s.pc + 2)) := rfl

theorem writeRegFlag_eq (x : RegIdx) (b : Byte) (f : BitVec 1) (s : State) :
    writeRegFlag x b f s = .next (((s.setReg x b).setReg vf (f.zeroExtend 8)).setPc (s.pc + 2)) := rfl

@[simp] theorem toNat_flag (f : BitVec 1) : (f.zeroExtend 8).toNat = f.toNat := by
  simp [BitVec.toNat_setWidth]; omega

theorem toNat_flagOf (c : Bool) : (flagOf c).toNat = if c then 1 else 0 := by cases c <;> rfl

@[simp] theorem toNat_address (nnn : Addr) : (address nnn).toNat = nnn.toNat := by
  simp [address, BitVec.toNat_setWidth]; omega

theorem toNat_addressPlusV0 (nnn : Addr) (s : State) :
    (addressPlusV0 nnn s).toNat = nnn.toNat + (s.reg 0).toNat := by
  simp [addressPlusV0, BitVec.toNat_add]; omega

theorem toNat_addBytes (a b : Byte) : (addBytes a b).toNat = (a.toNat + b.toNat) % 256 := by
  simp [addBytes]

theorem toNat_subBytes (a b : Byte) : (subBytes a b).toNat = (a.toNat + 256 - b.toNat) % 256 := by
  simp [subBytes]

theorem keyIs_iff (s : State) (v : Byte) : keyIs s v = true ↔ ∃ k, s.key = some k ∧ k.toNat = v.toNat := by
  unfold keyIs
  cases s.key with
  | none => simp
  | some k =>
    have e : (k.zeroExtend 8).toNat = k.toNat := by simp [BitVec.toNat_setWidth]; omega
    simp only [beq_iff_eq, ← BitVec.toNat_inj, e]
    exact ⟨fun h => ⟨k, rfl, h⟩, fun ⟨k', hk, h⟩ => by cases hk; exact h⟩

end Sys2Proof.Machine
end

