-- ==== Sys2Proof/Laws/PerInstr.lean ====
section
/-! SUPPORT. One lemma per constructor: the word an instruction encodes to fits its row of the opcode
map (spec 30_encoding.md R59). -/

namespace Sys2Proof.Laws.OpcodeRow

/-- The encoded word of a well-formed instruction has the bits its row fixes. -/
def Statement (i : Instr) : Prop :=
  wellFormed i = true → encode i &&& (opcodeRow i).1 = (opcodeRow i).2

/-! Each format under each mask of the map keeps its fixed fields and clears its free ones. -/

theorem mask_nnn (f : Nibble) (nnn : Addr) : wordNNN f nnn &&& 0xF000 = wordNNN f 0 := by
  rw [show (0xF000 : Word) = wordNNN 0xF 0 from rfl, wordNNN_and]
  congr 1
  · exact BitVec.and_allOnes
  · exact BitVec.and_zero

theorem mask_xkk (f : Nibble) (x : RegIdx) (kk : Byte) : wordXKK f x kk &&& 0xF000 = wordXKK f 0 0 := by
  rw [show (0xF000 : Word) = wordXKK 0xF 0 0 from rfl, wordXKK_and]
  congr 1
  · exact BitVec.and_allOnes
  · exact BitVec.and_zero
  · exact BitVec.and_zero

theorem mask_xy (f n : Nibble) (x y : RegIdx) : wordXYN f x y n &&& 0xF00F = wordXYN f 0 0 n := by
  rw [show (0xF00F : Word) = wordXYN 0xF 0 0 0xF from rfl, wordXYN_and]
  congr 1
  · exact BitVec.and_allOnes
  · exact BitVec.and_zero
  · exact BitVec.and_zero
  · exact BitVec.and_allOnes

theorem mask_xyn (f n : Nibble) (x y : RegIdx) : wordXYN f x y n &&& 0xF000 = wordXYN f 0 0 0 := by
  rw [show (0xF000 : Word) = wordXYN 0xF 0 0 0 from rfl, wordXYN_and]
  congr 1
  · exact BitVec.and_allOnes
  · exact BitVec.and_zero
  · exact BitVec.and_zero
  · exact BitVec.and_zero

theorem mask_xsub (f : Nibble) (x : RegIdx) (kk : Byte) : wordXKK f x kk &&& 0xF0FF = wordXKK f 0 kk := by
  rw [show (0xF0FF : Word) = wordXKK 0xF 0 0xFF from rfl, wordXKK_and]
  congr 1
  · exact BitVec.and_allOnes
  · exact BitVec.and_zero
  · exact BitVec.and_allOnes

theorem sys (nnn : Addr) : Statement (.sys nnn) := fun _ => (mask_nnn _ _).trans rfl
theorem jp (nnn : Addr) : Statement (.jp nnn) := fun _ => (mask_nnn _ _).trans rfl
theorem call (nnn : Addr) : Statement (.call nnn) := fun _ => (mask_nnn _ _).trans rfl
theorem ldI (nnn : Addr) : Statement (.ldI nnn) := fun _ => (mask_nnn _ _).trans rfl
theorem jpV0 (nnn : Addr) : Statement (.jpV0 nnn) := fun _ => (mask_nnn _ _).trans rfl
theorem seImm (x : RegIdx) (kk : Byte) : Statement (.seImm x kk) := fun _ => (mask_xkk _ _ _).trans rfl
theorem sneImm (x : RegIdx) (kk : Byte) : Statement (.sneImm x kk) := fun _ => (mask_xkk _ _ _).trans rfl
theorem ldImm (x : RegIdx) (kk : Byte) : Statement (.ldImm x kk) := fun _ => (mask_xkk _ _ _).trans rfl
theorem addImm (x : RegIdx) (kk : Byte) : Statement (.addImm x kk) := fun _ => (mask_xkk _ _ _).trans rfl
theorem rnd (x : RegIdx) (kk : Byte) : Statement (.rnd x kk) := fun _ => (mask_xkk _ _ _).trans rfl
theorem seReg (x y : RegIdx) : Statement (.seReg x y) := fun _ => (mask_xy _ _ _ _).trans rfl
theorem mov (x y : RegIdx) : Statement (.mov x y) := fun _ => (mask_xy _ _ _ _).trans rfl
theorem or (x y : RegIdx) : Statement (.or x y) := fun _ => (mask_xy _ _ _ _).trans rfl
theorem and (x y : RegIdx) : Statement (.and x y) := fun _ => (mask_xy _ _ _ _).trans rfl
theorem xor (x y : RegIdx) : Statement (.xor x y) := fun _ => (mask_xy _ _ _ _).trans rfl
theorem addReg (x y : RegIdx) : Statement (.addReg x y) := fun _ => (mask_xy _ _ _ _).trans rfl
theorem sub (x y : RegIdx) : Statement (.sub x y) := fun _ => (mask_xy _ _ _ _).trans rfl
theorem shr (x y : RegIdx) : Statement (.shr x y) := fun _ => (mask_xy _ _ _ _).trans rfl
theorem subn (x y : RegIdx) : Statement (.subn x y) := fun _ => (mask_xy _ _ _ _).trans rfl
theorem shl (x y : RegIdx) : Statement (.shl x y) := fun _ => (mask_xy _ _ _ _).trans rfl
theorem sneReg (x y : RegIdx) : Statement (.sneReg x y) := fun _ => (mask_xy _ _ _ _).trans rfl
theorem skp (x : RegIdx) : Statement (.skp x) := fun _ => (mask_xsub _ _ _).trans rfl
theorem sknp (x : RegIdx) : Statement (.sknp x) := fun _ => (mask_xsub _ _ _).trans rfl
theorem ldVxDt (x : RegIdx) : Statement (.ldVxDt x) := fun _ => (mask_xsub _ _ _).trans rfl
theorem ldVxK (x : RegIdx) : Statement (.ldVxK x) := fun _ => (mask_xsub _ _ _).trans rfl
theorem ldDtVx (x : RegIdx) : Statement (.ldDtVx x) := fun _ => (mask_xsub _ _ _).trans rfl
theorem ldStVx (x : RegIdx) : Statement (.ldStVx x) := fun _ => (mask_xsub _ _ _).trans rfl
theorem addI (x : RegIdx) : Statement (.addI x) := fun _ => (mask_xsub _ _ _).trans rfl
theorem ldF (x : RegIdx) : Statement (.ldF x) := fun _ => (mask_xsub _ _ _).trans rfl
theorem ldB (x : RegIdx) : Statement (.ldB x) := fun _ => (mask_xsub _ _ _).trans rfl
theorem ldMemStore (x : RegIdx) : Statement (.ldMemStore x) := fun _ => (mask_xsub _ _ _).trans rfl
theorem ldMemLoad (x : RegIdx) : Statement (.ldMemLoad x) := fun _ => (mask_xsub _ _ _).trans rfl
theorem drw (x y : RegIdx) (n : Nibble) : Statement (.drw x y n) :=
  fun _ => (mask_xyn _ _ _ _).trans rfl
theorem cls : Statement .cls := fun _ => rfl
theorem ret : Statement .ret := fun _ => rfl
theorem unknown (w : Word) : Statement (.unknown w) := fun _ => BitVec.and_allOnes

end Sys2Proof.Laws.OpcodeRow
end

