-- ==== Sys2Proof/Tests/Slice0.lean ====
section
/-! SUPPORT. Tests. Every expected value is from spec 95_test_vectors.md (section 2 for words, 3 to 7 for
one instruction), or worked out by hand from the rule named; the witnesses at the end show that the
hypotheses of the statements can be met. -/

namespace Sys2Proof.Tests

open Sys2Proof Sys2Proof.Machine

-- One theorem at a time: checking all of these in parallel asks for a thread, and its stack, for each.
set_option Elab.async false

/-! ### Helpers -/

/-- The start state of the vectors: all registers 0, pc 0x200, the default parameters, generator state 0. -/
def s0 : State :=
  { v := Vector.replicate 16 0, i := 0, pc := 0x200, dt := 0, st := 0, stack := [], key := none, rng := 0
    fb := clearFb, mem := [], params := Params.default }

/-- A state with two registers given. -/
def with2 (x : RegIdx) (a : Byte) (y : RegIdx) (b : Byte) : State := (s0.setReg x a).setReg y b

/-- `s` under another SHR_MODE. -/
def withShr (m : ShrMode) (s : State) : State := { s with params := { s.params with shrMode := m } }

/-- `s` with SUB_EQ_FLAG = 1. -/
def withEqFlag (s : State) : State := { s with params := { s.params with subEqFlag := 1 } }

/-- A stack of `n` entries. -/
def withDepth (n : Nat) : State := s0.setStack (List.replicate n 0x202)

/-- The answer is a next state that satisfies `p`. -/
def passes (r : Result) (p : State → Bool) : Bool :=
  match r with
  | .next t => p t
  | _ => false

/-- The answer is the fault `e`. -/
def failsWith (r : Result) (e : Fault) : Bool :=
  match r with
  | .fault e' => e' == e
  | _ => false

/-- The step that runs word `w` in `s`. -/
def runWord (w : Nat) (s : State) : Result := step (s.withFetchWord 16 w)

/-- A step of word `w` leaves `V[x] = b`, `VF = f`, and the pc at 0x202. -/
def givesReg (w : Nat) (s : State) (x : RegIdx) (b f : Byte) : Bool :=
  passes (runWord w s) fun t => t.reg x == b && t.reg vf == f && t.pc == 0x202

/-- A step of word `w` leaves the pc at `a`. -/
def givesPc (w : Nat) (s : State) (a : Word) : Bool := passes (runWord w s) fun t => t.pc == a

/-! ### Well-formedness (40_decoder_and_tick.md R68) -/

theorem test_wf_refuses_sys_of_cls : wellFormed (.sys 0x0E0) = false := by decide

theorem test_wf_refuses_sys_of_ret : wellFormed (.sys 0x0EE) = false := by decide

theorem test_wf_refuses_unknown_of_mapped : wellFormed (.unknown 0x1234) = false := by decide

theorem test_wf_accepts :
    wellFormed (.sys 0x1E0) = true ∧ wellFormed (.unknown 0x5121) = true ∧ wellFormed (.drw 1 2 0) = true := by
  decide

/-! ### Decoding: 95_test_vectors.md section 2, every constructor -/

theorem test_decode_family_0 :
    decode 0x00E0 = .cls ∧ decode 0x00EE = .ret ∧ decode 0x0000 = .sys 0x000 ∧ decode 0x00E1 = .sys 0x0E1 ∧
      decode 0x01E0 = .sys 0x1E0 ∧ decode 0x0FEE = .sys 0xFEE := by decide

theorem test_decode_control :
    decode 0x1234 = .jp 0x234 ∧ decode 0x2ABC = .call 0xABC ∧ decode 0x3A5F = .seImm 10 0x5F ∧
      decode 0x4B00 = .sneImm 11 0x00 ∧ decode 0x5120 = .seReg 1 2 ∧ decode 0x9340 = .sneReg 3 4 ∧
      decode 0xB300 = .jpV0 0x300 := by decide

theorem test_decode_loads_and_random :
    decode 0x6BFF = .ldImm 11 0xFF ∧ decode 0x7C01 = .addImm 12 0x01 ∧ decode 0xC40F = .rnd 4 0x0F := by
  decide

theorem test_decode_family_8 :
    decode 0x8AB0 = .mov 10 11 ∧ decode 0x8AB1 = .or 10 11 ∧ decode 0x8AB2 = .and 10 11 ∧
      decode 0x8AB3 = .xor 10 11 ∧ decode 0x8AB4 = .addReg 10 11 ∧ decode 0x8AB5 = .sub 10 11 ∧
      decode 0x8AB6 = .shr 10 11 ∧ decode 0x8AB7 = .subn 10 11 ∧ decode 0x8ABE = .shl 10 11 := by decide

theorem test_decode_index_and_display :
    decode 0xA206 = .ldI 0x206 ∧ decode 0xD125 = .drw 1 2 5 ∧ decode 0xD120 = .drw 1 2 0 := by decide

theorem test_decode_families_E_and_F :
    decode 0xE59E = .skp 5 ∧ decode 0xE5A1 = .sknp 5 ∧ decode 0xF007 = .ldVxDt 0 ∧ decode 0xF10A = .ldVxK 1 ∧
      decode 0xF215 = .ldDtVx 2 ∧ decode 0xF318 = .ldStVx 3 ∧ decode 0xF41E = .addI 4 ∧
      decode 0xF529 = .ldF 5 ∧ decode 0xF633 = .ldB 6 ∧ decode 0xF755 = .ldMemStore 7 ∧
      decode 0xF865 = .ldMemLoad 8 := by decide

theorem test_decode_unknown_5_8_9 :
    decode 0x5121 = .unknown 0x5121 ∧ decode 0x512F = .unknown 0x512F ∧ decode 0x8AB8 = .unknown 0x8AB8 ∧
      decode 0x8ABD = .unknown 0x8ABD ∧ decode 0x8ABF = .unknown 0x8ABF ∧ decode 0x9341 = .unknown 0x9341 := by
  decide

theorem test_decode_unknown_E_F :
    decode 0xE5A0 = .unknown 0xE5A0 ∧ decode 0xE500 = .unknown 0xE500 ∧ decode 0xF030 = .unknown 0xF030 ∧
      decode 0xF085 = .unknown 0xF085 ∧ decode 0xFFFF = .unknown 0xFFFF := by decide

theorem test_decoder_bus :
    decoderBus 0x9340 = (19, 0x9340) ∧ decoderBus 0xF865 = (34, 0xF865) ∧ decoderBus 0x8ABF = (35, 0x8ABF) := by
  decide

theorem test_decode_big_endian : decodeTableWord 16 0x8AB4 = some (.addReg 10 11) := by decide

theorem test_decode_too_few_bytes : decodeBytes [0x12] = .error .tooFewBytes := by rfl

/-- The listings of section 8, and the syntax of an unknown word (30_encoding.md R64). -/
theorem test_asm :
    asm (.ldI 0x206) = "LD I, 0x206" ∧ asm (.addReg 10 11) = "ADD VA, VB" ∧ asm (.seImm 15 1) = "SE VF, 0x01" ∧
      asm (.ldMemStore 1) = "LD [I], V1" ∧ asm (.unknown 0x8AB8) = ".word 0x8AB8" := by decide +kernel

/-! ### Control transfer and skips: section 4 -/

theorem test_sys : givesPc 0x0123 s0 0x202 = true := by decide +kernel

theorem test_jp : givesPc 0x1234 s0 0x234 = true := by decide +kernel

theorem test_call :
    passes (runWord 0x2300 s0) (fun t => t.pc == 0x300 && t.stack == [0x202]) = true := by decide +kernel

theorem test_call_overflow :
    failsWith (runWord 0x2200 (withDepth 16)) .stackOverflow = true ∧ givesPc 0x2200 (withDepth 15) 0x200 = true := by
  decide +kernel

theorem test_ret :
    passes (runWord 0x00EE ((s0.setPc 0x300).setStack [0x202])) (fun t => t.pc == 0x202 && t.stack == []) = true := by
  decide +kernel

theorem test_ret_underflow : failsWith (runWord 0x00EE s0) .stackUnderflow = true := by decide +kernel

theorem test_jpV0 :
    givesPc 0xB300 (s0.setReg 0 0x04) 0x304 = true ∧ givesPc 0xBF00 (s0.setReg 0 0xFF) 0xFFF = true := by
  decide +kernel

theorem test_seImm :
    givesPc 0x335F (s0.setReg 3 0x5F) 0x204 = true ∧ givesPc 0x335F (s0.setReg 3 0x5E) 0x202 = true := by
  decide +kernel

theorem test_seImm_at_the_top : givesPc 0x3000 (s0.setPc 0xFFE) 0x1002 = true := by decide +kernel

theorem test_sneImm :
    givesPc 0x4012 (s0.setReg 0 0x12) 0x202 = true ∧ givesPc 0x4012 (s0.setReg 0 0x13) 0x204 = true := by
  decide +kernel

theorem test_seReg :
    givesPc 0x5120 (with2 1 7 2 7) 0x204 = true ∧ givesPc 0x5110 (s0.setReg 1 9) 0x204 = true := by
  decide +kernel

theorem test_sneReg :
    givesPc 0x9340 (with2 3 1 4 2) 0x204 = true ∧ givesPc 0x9330 (s0.setReg 3 9) 0x202 = true := by
  decide +kernel

theorem test_unknown : givesPc 0x5121 s0 0x202 = true := by decide +kernel

theorem test_fetch_past_the_top : failsWith (step (s0.setPc 0x1000)) (.memoryOutOfBounds 0x1000) = true := by
  decide +kernel

theorem test_fetch_odd : failsWith (step (s0.setPc 0x201)) (.memoryOutOfBounds 0x201) = true := by
  decide +kernel

theorem test_fetch_0xFFF : failsWith (step (s0.setPc 0xFFF)) (.memoryOutOfBounds 0xFFF) = true := by
  decide +kernel

/-! ### Registers and arithmetic: section 3 -/

theorem test_ldImm : givesReg 0x6BFF s0 11 0xFF 0 = true := by decide +kernel

theorem test_addImm :
    givesReg 0x7CFF (with2 12 0xFF 15 1) 12 0xFE 1 = true ∧ givesReg 0x7FFF (s0.setReg 15 2) 15 1 1 = true := by
  decide +kernel

theorem test_mov : givesReg 0x8120 (s0.setReg 2 0x33) 1 0x33 0 = true := by decide +kernel

theorem test_or : givesReg 0x8121 ((with2 1 0xF0 2 0x0F).setReg 15 1) 1 0xFF 1 = true := by decide +kernel

theorem test_and : givesReg 0x8122 (with2 1 0xF0 2 0x3C) 1 0x30 0 = true := by decide +kernel

theorem test_xor : givesReg 0x8123 (with2 1 0xF0 2 0x3C) 1 0xCC 0 = true := by decide +kernel

theorem test_addReg :
    givesReg 0x8014 (with2 0 0xFF 1 0x01) 0 0x00 1 = true ∧
      givesReg 0x8014 ((with2 0 0x80 1 0x7F).setReg 15 1) 0 0xFF 0 = true := by decide +kernel

theorem test_addReg_flag_wins :
    givesReg 0x8FF4 (s0.setReg 15 0x80) 15 1 1 = true ∧ givesReg 0x8F04 (with2 15 0x10 0 1) 15 0 0 = true := by
  decide +kernel

theorem test_sub :
    givesReg 0x8015 (with2 0 5 1 3) 0 2 1 = true ∧ givesReg 0x8015 (with2 0 3 1 5) 0 0xFE 0 = true ∧
      givesReg 0x8F05 (with2 15 0x10 0 0x20) 15 0 0 = true := by decide +kernel

theorem test_sub_equal :
    givesReg 0x8015 ((with2 0 7 1 7).setReg 15 1) 0 0 0 = true ∧
      givesReg 0x8015 (withEqFlag (with2 0 7 1 7)) 0 0 1 = true := by decide +kernel

theorem test_subn :
    givesReg 0x8017 (with2 0 3 1 5) 0 2 1 = true ∧ givesReg 0x8017 (with2 0 5 1 3) 0 0xFE 0 = true ∧
      givesReg 0x8F07 (with2 15 1 0 5) 15 1 1 = true := by decide +kernel

theorem test_subn_equal :
    givesReg 0x8017 ((with2 0 9 1 9).setReg 15 1) 0 0 0 = true ∧
      givesReg 0x8017 (withEqFlag (with2 0 9 1 9)) 0 0 1 = true := by decide +kernel

theorem test_shr :
    givesReg 0x8126 (with2 1 0xF1 2 0x09) 1 0x78 1 = true ∧
      givesReg 0x8126 ((s0.setReg 1 4).setReg 15 1) 1 2 0 = true ∧
      givesReg 0x8F06 (s0.setReg 15 3) 15 1 1 = true := by decide +kernel

theorem test_shr_other_modes :
    givesReg 0x8126 (withShr .vyByOne (with2 1 0x05 2 0x80)) 1 0x40 0 = true ∧
      givesReg 0x8126 (withShr .vyByOne (with2 1 0xF1 2 0x09)) 1 0x04 1 = true ∧
      givesReg 0x8126 (withShr .vxByVy (with2 1 0x05 2 0x80)) 1 0x00 1 = true ∧
      givesReg 0x8126 (withShr .vxByVy (with2 1 0xF1 2 0x00)) 1 0xF1 1 = true := by decide +kernel

theorem test_shl :
    givesReg 0x823E (with2 2 0x81 3 0xFF) 2 0x02 1 = true ∧
      givesReg 0x823E ((s0.setReg 2 0x7F).setReg 15 1) 2 0xFE 0 = true := by decide +kernel

theorem test_shl_flag_wins : givesReg 0x8F0E (s0.setReg 15 0x80) 15 1 1 = true := by decide +kernel

/-- R103 with the mask 0, whatever the generator draws. -/
theorem test_rnd_mask_0 : exec (.rnd 4 0x00) (s0.setReg 4 9) =
    .next ((s0.setReg 4 0).setRng (Config.rngNext 0).2).advance := by
  have h : (rngNext (s0.setReg 4 9).rng).1 &&& 0 = 0 := BitVec.and_zero
  show execRnd 4 0x00 (s0.setReg 4 9) = _
  unfold execRnd
  rw [show (0x00 : Byte) = 0 from rfl, h]
  rfl

/-! ### Index, memory, timers and keys: section 5 -/

theorem test_ldI : passes (runWord 0xA206 s0) (fun t => t.i == 0x206 && t.pc == 0x202) = true := by
  decide +kernel

theorem test_addI :
    passes (runWord 0xF51E ((s0.setI 0xFFFF).setReg 5 1)) (fun t => t.i == 0 && t.reg vf == 0) = true ∧
      passes (runWord 0xF51E ((s0.setI 0x0FFF).setReg 5 1)) (fun t => t.i == 0x1000) = true := by
  decide +kernel

/-- R107 with the open GLYPH_ADDR. -/
theorem test_ldF : exec (.ldF 0) (s0.setReg 0 0x0A) =
    .next ((s0.setReg 0 0x0A).setI (Config.glyphAddr 0x0A)).advance := rfl

theorem test_ldB :
    passes (runWord 0xF033 ((s0.setI 0x300).setReg 0 134))
        (fun t => t.mem == [(0x200, 0xF0), (0x201, 0x33), (0x300, 1), (0x301, 3), (0x302, 4)]) = true ∧
      passes (runWord 0xF033 ((s0.setI 0xFFD).setReg 0 255))
        (fun t => t.byte 0xFFD == 2 && t.byte 0xFFE == 5 && t.byte 0xFFF == 5) = true := by decide +kernel

theorem test_ldB_out_of_range :
    failsWith (runWord 0xF033 (s0.setI 0xFFE)) (.memoryOutOfBounds 0x1000) = true := by decide +kernel

theorem test_ldMemStore :
    passes (runWord 0xF255 (((with2 0 1 1 2).setReg 2 3).setI 0x400))
        (fun t => t.byte 0x400 == 1 && t.byte 0x401 == 2 && t.byte 0x402 == 3 && t.i == 0x400) = true ∧
      passes (runWord 0xFF55 ((s0.setReg 15 9).setI 0xFF0)) (fun t => t.byte 0xFFF == 9) = true := by
  decide +kernel

theorem test_ldMemStore_out_of_range :
    failsWith (runWord 0xFF55 (s0.setI 0xFF1)) (.memoryOutOfBounds 0x1000) = true := by decide +kernel

theorem test_ldMemLoad :
    passes (runWord 0xF265 ((s0.setI 0x300).setMem [(0x300, 2), (0x301, 5), (0x302, 5), (0x303, 7)]))
        (fun t => t.reg 0 == 2 && t.reg 1 == 5 && t.reg 2 == 5 && t.reg 3 == 0 && t.i == 0x300) = true ∧
      passes (runWord 0xF065 ((s0.setI 0xFFF).setMem [(0xFFF, 8)])) (fun t => t.reg 0 == 8) = true := by
  decide +kernel

theorem test_ldMemLoad_out_of_range :
    failsWith (runWord 0xF165 (s0.setI 0xFFF)) (.memoryOutOfBounds 0x1000) = true ∧
      failsWith (runWord 0xF065 (s0.setI 0xFFFF)) (.memoryOutOfBounds 0xFFFF) = true := by decide +kernel

theorem test_skp :
    givesPc 0xE59E ((s0.setKey (some 5)).setReg 5 5) 0x204 = true ∧
      givesPc 0xE59E ((s0.setKey (some 4)).setReg 5 5) 0x202 = true ∧ givesPc 0xE59E (s0.setReg 5 5) 0x202 = true ∧
      givesPc 0xE59E ((s0.setKey (some 5)).setReg 5 0x15) 0x202 = true := by decide +kernel

theorem test_sknp :
    givesPc 0xE5A1 s0 0x204 = true ∧ givesPc 0xE5A1 ((s0.setKey (some 5)).setReg 5 5) 0x202 = true := by
  decide +kernel

theorem test_ldVxDt : givesReg 0xF307 (s0.setDt 0x3C) 3 0x3C 0 = true := by decide +kernel

theorem test_ldDtVx :
    passes (runWord 0xF215 (s0.setReg 2 0x3C)) (fun t => t.dt == 0x3C && t.st == 0 && t.pc == 0x202) = true := by
  decide +kernel

theorem test_ldStVx :
    passes (runWord 0xF218 (s0.setReg 2 0x10)) (fun t => t.st == 0x10 && t.dt == 0 && t.pc == 0x202) = true := by
  decide +kernel

theorem test_ldVxK :
    passes (runWord 0xF40A (s0.setKey (some 12)))
      (fun t => t.reg 4 == 12 && t.pc == 0x202 && t.key == some 12) = true := by decide +kernel

theorem test_ldVxK_waits : exec (.ldVxK 4) s0 = .next s0 := rfl

/-! ### Display: section 6 -/

/-- A draw, as the list of its non-zero bytes (index, byte), and its collision. -/
def drawn (fb : Framebuffer) (vx vy : Byte) (sprite : List Byte) : List (Nat × Nat) × Bool :=
  ((draw fb vx vy sprite).1.toList.zipIdx.filterMap
    (fun p => if p.1 = 0 then none else some (p.2, p.1.toNat)), (draw fb vx vy sprite).2)

/-- A framebuffer with one byte of row 0 given. -/
def fbWith (b : Fin 8) (v : Byte) : Framebuffer := setFbByte clearFb 0 b v

theorem test_draw_both_wraps :
    drawn clearFb 60 30 [0xFF, 0xFF, 0xFF] =
      ([(0, 0xF0), (7, 0x0F), (240, 0xF0), (247, 0x0F), (248, 0xF0), (255, 0x0F)], false) := by decide +kernel

theorem test_draw_reduces_coordinates :
    drawn clearFb 0x47 0x21 [0xF0] = ([(8, 0x01), (9, 0xE0)], false) := by decide +kernel

theorem test_draw_carry_part :
    drawn (fbWith 1 0x01) 4 0 [0x0F] = ([(1, 0xF1)], false) ∧
      drawn (fbWith 1 0x80) 4 0 [0x0F] = ([(1, 0x70)], true) := by decide +kernel

theorem test_draw_carry_wraps : drawn (fbWith 0 0x80) 63 0 [0xC0] = ([(7, 0x01)], true) := by decide +kernel

theorem test_draw_collision :
    drawn (fbWith 0 0xC0) 0 0 [0x80] = ([(0, 0x40)], true) ∧ drawn (fbWith 0 0xFF) 0 0 [0x00] = ([(0, 0xFF)], false) := by
  decide +kernel

theorem test_cls :
    passes (runWord 0x00E0 ((s0.setFb (fbWith 3 0xFF)).setReg 15 1))
      (fun t => (t.fb.toList.all fun b => b == 0) && t.reg vf == 1 && t.pc == 0x202) = true := by decide +kernel

theorem test_drw :
    passes (runWord 0xDFF1 (((s0.setReg 15 8).setI 0x300).setMem [(0x300, 0x80)]))
        (fun t => fbByte t.fb 8 1 == 0x80 && t.reg vf == 0 && t.pc == 0x202) = true ∧
      passes (runWord 0xD000 ((s0.setReg 15 1).setI 0x1000))
        (fun t => (t.fb.toList.all fun b => b == 0) && t.reg vf == 0 && t.pc == 0x202) = true := by decide +kernel

theorem test_drw_out_of_range :
    failsWith (runWord 0xD005 (s0.setI 0xFFC)) (.memoryOutOfBounds 0x1000) = true ∧
      failsWith (runWord 0xD001 (s0.setI 0xFFFF)) (.memoryOutOfBounds 0xFFFF) = true ∧
      givesPc 0xD005 (s0.setI 0xFFB) 0x202 = true := by decide +kernel

/-! ### Host operations (section 5; 70_reset_and_hazards.md R146) -/

theorem test_decrement_timers :
    readTimers (decrementTimers ((s0.setDt 3).setSt 0)) = (2, 0) ∧
      readTimers (decrementTimers ((s0.setDt 0).setSt 1)) = (0, 0) := by decide

theorem test_create_places_the_image :
    passes (create [0x12, 0x34] 0 Params.default) (fun t => t.byte 0x200 == 0x12 && t.byte 0x201 == 0x34) = true := by
  decide +kernel

/-- Program P1 of section 8: the third step draws, and finds no collision. -/
theorem test_create_then_first_step :
    passes (create [0x00, 0xE0, 0xA2, 0x06] 0 Params.default)
      (fun t => passes (step t) fun u => u.pc == 0x202 && u.byte 0x203 == 0x06) = true := by decide +kernel

/-- A stack of up to 16 return addresses meets the invariant. -/
theorem withDepth_inv (n : Nat) (h : n ≤ 16) : (withDepth n).Inv := by
  refine ⟨⟨.nil, nofun⟩, show 1 ≤ 16 by decide, ?_, ?_, show (0x200 : Word).toNat ≤ 0x10FE by decide⟩
  · show (List.replicate n _).length ≤ 16
    rwa [List.length_replicate]
  · intro a ha
    obtain rfl := List.eq_of_mem_replicate ha
    decide

/-- A key above 15 has no step, and a schedule with it no run (60_exceptions.md R138, decision D33). -/
theorem test_refused_key_has_no_run :
    HostCall.apply (.setKeyPressed (some 16)) s0 = .error .keyOutOfRange ∧
      runSchedule [.decrementTimers, .setKeyPressed (some 16), .setKeyPressed none] s0 = .error .keyOutOfRange :=
  ⟨rfl, rfl⟩

/-! ### Witnesses: the hypotheses of the statements can be met, at the edges of their ranges -/

theorem wit_DecodeOfEncodeIsIdentity :
    wellFormed (.sys 0xFFF) = true ∧ wellFormed (.ldMemLoad 15) = true ∧ wellFormed (.unknown 0xFFFF) = true := by
  decide

/-- The edges of `sys` beside its two exceptions, and the one tag of the unknown set. -/
theorem wit_DecoderBusCarriesTagAndWord :
    (0x0E1 : Addr) ≠ 0x0E0 ∧ (0x0E1 : Addr) ≠ 0x0EE ∧ (decoderBus 0x00E1).1 = 0 ∧ (decoderBus 0x5121).1 = 35 := by
  decide

theorem wit_UnknownSetIsWhatDecodesToUnknown :
    decode 0x9FFF = .unknown 0x9FFF ∧ inUnknownSet 0x9FFF = true ∧ inUnknownSet 0x9FF0 = false := by decide

/-- The range, at its last legal address and one past it. -/
theorem wit_MemReadAnswersTheRange :
    0xFFD + 3 ≤ 0x1000 ∧ (∃ bytes, memRead [(0xFFF, 9)] 0xFFD 3 = .ok bytes) ∧ 1 ≤ 3 ∧ 0xFFE + 3 - 1 > 0xFFF ∧
      memRead [(0xFFF, 9)] 0xFFE 3 = .error (.memoryOutOfBounds 0x1000) :=
  ⟨by decide, ⟨_, rfl⟩, by decide, by decide, rfl⟩

theorem wit_MemWriteWritesTheRange :
    Memory.wf [(0xFFF, 9)] ∧ 0xFFD + [1, 2, (3 : Byte)].length ≤ 0x1000 ∧
      (∃ m, memWrite [(0xFFF, 9)] 0xFFD [1, 2, 3] = .ok m) ∧ 0xFFE + [1, 2, (3 : Byte)].length - 1 > 0xFFF ∧
      memWrite [(0xFFF, 9)] 0xFFE [1, 2, 3] = .error (.memoryOutOfBounds 0x1000) :=
  ⟨by decide +kernel, by decide, ⟨_, rfl⟩, by decide, rfl⟩

theorem wit_CanonicalMemoriesAreExtensional : Memory.wf [(0x200, 1), (0xFFF, 9)] := by decide +kernel

theorem wit_StepRunsTheDecodedInstruction :
    (s0.setPc 0xFFE).pc.toNat ≤ 0xFFE ∧ (s0.setPc 0xFFE).pc.toNat % 2 = 0 := by decide

theorem wit_IllegalFetchFaultsWithThePc :
    (s0.setPc 0x1000).pc.toNat > 0xFFE ∧ (s0.setPc 0x201).pc.toNat % 2 = 1 := by decide

theorem wit_TickReturnsTheExecutedInstruction :
    (∃ i t, tick (s0.withFetchWord 16 0x6BFF) = .next (i, t)) ∧ ∃ e, step (s0.setPc 0x201) = .fault e :=
  ⟨⟨_, _, rfl⟩, ⟨_, rfl⟩⟩

theorem wit_PlacedWordRunsNext : Memory.wf s0.mem ∧ 0xFFFF < 0x10000 ∧ fetchLegal s0.pc := by decide +kernel

theorem wit_ExecFailsExactlyAsListed :
    execFailure .ret s0 = some .stackUnderflow ∧ execFailure .ret (withDepth 1) = none ∧
      execFailure (.call 0) (withDepth 16) = some .stackOverflow ∧ execFailure (.call 0) (withDepth 15) = none ∧
      execFailure (.ldB 0) (s0.setI 0xFFE) = some (.memoryOutOfBounds 0x1000) ∧
      execFailure (.ldB 0) (s0.setI 0xFFD) = none := by decide +kernel

theorem wit_EveryStepKeepsTheInvariant :
    (withDepth 16).Inv ∧ ∃ t, step (withDepth 16) = .next t := ⟨withDepth_inv 16 (by decide), ⟨_, rfl⟩⟩

theorem wit_HostCallsKeepTheInvariant :
    (withDepth 0).Inv ∧ (∀ n, HostCall.setKeyPressed (some n) ∈ [.tick, .setKeyPressed (some 15)] → n ≤ 15) ∧
      1 ≤ Params.default.stackCapacity ∧ ∃ t, create [1, 2] 0 Params.default = .next t := by
  refine ⟨withDepth_inv 0 (by decide), fun n h => ?_, by decide, ⟨_, rfl⟩⟩
  simp at h
  omega

theorem wit_FailedTickChangesNothingAndRepeats :
    ∃ t e, HostCall.apply .tick (s0.setPc 0x201) = .ok (t, .err e) := ⟨_, _, rfl⟩

theorem wit_RegistersChangeOnlyWhereListed :
    (∃ t, exec (.ldMemLoad 3) s0 = .next t) ∧ ¬ writesReg (.ldMemLoad 3) 4 ∧ ¬ writesReg (.shl 1 2) 2 ∧
      ∃ t, exec (.shl 1 2) s0 = .next t :=
  ⟨⟨_, rfl⟩, by unfold writesReg; decide, by unfold writesReg; decide, ⟨_, rfl⟩⟩

/-- Just below and just above the stored bytes of a three-byte and of a sixteen-byte store. -/
theorem wit_MemoryChangesOnlyInTheStoredRange :
    (∃ t, exec (.ldB 0) (s0.setI 0x300) = .next t) ∧ 0x2FF < indexBase (s0.setI 0x300) ∧
      indexBase (s0.setI 0x300) + storeLength (.ldB 0) ≤ 0x303 ∧
      (∃ t, exec (.ldMemStore 15) (s0.setI 0xFF0) = .next t) ∧
      indexBase (s0.setI 0xFF0) + storeLength (.ldMemStore 15) ≤ 0x1000 :=
  ⟨⟨_, rfl⟩, by decide, by decide, ⟨_, rfl⟩, by decide⟩

theorem wit_SpecialStateHasListedWritersOnly :
    (∃ t, exec .cls s0 = .next t) ∧ (∀ nnn, Instr.cls ≠ .ldI nnn) ∧ (∀ x, Instr.cls ≠ .addI x) ∧
      (∀ x, Instr.cls ≠ .ldF x) ∧ Instr.cls ≠ .ret ∧ (∀ nnn, Instr.cls ≠ .call nnn) ∧
      (∀ x kk, Instr.cls ≠ .rnd x kk) ∧ (∃ t, exec (.ldI 1) s0 = .next t) ∧ Instr.ldI 1 ≠ .cls ∧
      ∀ x y n, Instr.ldI 1 ≠ .drw x y n :=
  ⟨⟨_, rfl⟩, nofun, nofun, nofun, nofun, nofun, nofun, ⟨_, rfl⟩, nofun, nofun⟩

theorem wit_TickNeverWritesKeyNorCountsTimers :
    ∃ i t, tick ((s0.setDt 5).withFetchWord 16 0x6BFF) = .next (i, t) ∧ (∀ x, i ≠ .ldDtVx x) ∧
      ∀ x, i ≠ .ldStVx x := ⟨.ldImm 11 0xFF, _, rfl, nofun, nofun⟩

/-- An odd target, and 0xFFF. -/
theorem wit_JpSetsThePc : (0x203 : Addr).toNat % 2 = 1 ∧ (0xFFF : Addr).toNat = 0xFFF := by decide

theorem wit_JpV0AddsWithoutWrap :
    passes (exec (.jpV0 0xF00) (s0.setReg 0 0xFF)) (fun t => decide (t.pc.toNat > 0xFFE)) = true ∧
      passes (exec (.jpV0 0x300) (s0.setReg 0 1)) (fun t => decide (t.pc.toNat % 2 = 1)) = true := by
  decide +kernel

theorem wit_CallPushesNextAndJumps :
    (withDepth 15).stack.length < (withDepth 15).params.stackCapacity ∧
      (withDepth 16).stack.length = (withDepth 16).params.stackCapacity := by decide

theorem wit_RetPopsIntoThePc : (withDepth 1).stack = 0x202 :: [] ∧ s0.stack = [] := by decide

theorem wit_RetAfterCallResumesTheCaller : ∃ t, exec (.call 0x300) (withDepth 15) = .next t := ⟨_, rfl⟩

/-- Both outcomes of each compare, and a selector that is not 0. -/
theorem wit_CompareSkipsAddFourOrTwo :
    (with2 1 7 2 7).reg 1 = 7 ∧ (with2 1 7 2 7).reg 1 = (with2 1 7 2 7).reg 2 ∧
      (with2 1 7 2 8).reg 1 ≠ (with2 1 7 2 8).reg 2 ∧ (15 : Nibble) ≠ 0 := by decide +kernel

theorem wit_SneRegSkipsOnDifferentRegisters : (1 : Nibble) ≠ 0 ∧ (15 : Nibble) ≠ 0 := by decide

theorem wit_ResultAndFlagDetermineTheExactValue :
    (1 : RegIdx) ≠ vf ∧ (with2 1 3 2 5).reg 1 ≠ (with2 1 3 2 5).reg 2 ∧
      (with2 1 3 2 5).params.shrMode = .vxByOne ∧ (∃ t, exec (.addReg 1 2) (with2 1 3 2 5) = .next t) ∧
      (∃ t, exec (.sub 1 2) (with2 1 3 2 5) = .next t) ∧ (∃ t, exec (.subn 1 2) (with2 1 3 2 5) = .next t) ∧
      (∃ t, exec (.shl 1 2) (with2 1 3 2 5) = .next t) ∧ ∃ t, exec (.shr 1 2) (with2 1 3 2 5) = .next t :=
  ⟨by decide, by decide +kernel, rfl, ⟨_, rfl⟩, ⟨_, rfl⟩, ⟨_, rfl⟩, ⟨_, rfl⟩, ⟨_, rfl⟩⟩

theorem wit_LdBStoresThreeDigits :
    Memory.wf (s0.setI 0xFFD).mem ∧ (s0.setI 0xFFD).i.toNat + 2 ≤ 0xFFF ∧ (s0.setI 0xFFE).i.toNat + 2 > 0xFFF := by
  decide +kernel

theorem wit_LdMemStoreStoresV0ToVx :
    Memory.wf (s0.setI 0xFF0).mem ∧ (s0.setI 0xFF0).i.toNat + (15 : RegIdx).toNat ≤ 0xFFF ∧
      (s0.setI 0xFF1).i.toNat + (15 : RegIdx).toNat > 0xFFF := by decide +kernel

theorem wit_LdMemLoadLoadsV0ToVx :
    (s0.setI 0xFFF).i.toNat + (0 : RegIdx).toNat ≤ 0xFFF ∧ (s0.setI 0xFFF).i.toNat + (1 : RegIdx).toNat > 0xFFF := by
  decide

theorem wit_BulkLoadUndoesBulkStore :
    Memory.wf (s0.setI 0xFF0).mem ∧ ∃ t u, exec (.ldMemStore 15) (s0.setI 0xFF0) = .next t ∧
      exec (.ldMemLoad 15) { t with v := Vector.replicate 16 7 } = .next u :=
  ⟨by decide +kernel, _, _, rfl, rfl⟩

/-- Program P7 of section 8: the store at 0x206 overwrites the instruction at 0x208; and a BCD store that ends
at the first byte of the next instruction. -/
theorem wit_NextFetchSeesTheStore :
    Memory.wf s0.mem ∧ (∃ t, exec (.ldMemStore 1) (((with2 0 0x70 1 0x05).setPc 0x206).setI 0x208) = .next t ∧
        fetchLegal t.pc ∧ t.pc = 0x208) ∧
      (∃ t, exec (.ldB 0) (((s0.setReg 0 134).setPc 0x200).setI 0x200) = .next t ∧ fetchLegal t.pc ∧
        t.pc = 0x202) ∧ 0xFFE + 2 ≤ 0x1000 :=
  ⟨by decide +kernel, ⟨_, rfl, by decide +kernel, rfl⟩, ⟨_, rfl, by decide +kernel, rfl⟩, by decide⟩

/-- Height 0 outside memory, the last legal range, the first illegal one. -/
theorem wit_DrwDrawsTheSpriteAtI :
    (0 : Nibble).toNat = 0 ∧ (s0.setI 0xFFB).i.toNat + (5 : Nibble).toNat - 1 ≤ 0xFFF ∧
      1 ≤ (5 : Nibble).toNat ∧ (s0.setI 0xFFC).i.toNat + (5 : Nibble).toNat - 1 > 0xFFF := by decide

/-- A sprite of the full height 15. -/
theorem wit_DrawTogglesTheSpritePixels : (List.replicate 15 (0xFF : Byte)).length ≤ 15 := by decide

theorem wit_DrawingTwiceRestoresTheFramebuffer :
    (List.replicate 15 (0xFF : Byte)).length ≤ 15 ∧ (∃ b ∈ List.replicate 15 (0xFF : Byte), b ≠ 0) ∧
      (draw clearFb 63 31 (List.replicate 15 0xFF)).2 = false :=
  ⟨by decide, ⟨0xFF, by decide, by decide⟩, by decide +kernel⟩

/-- A key that matches, and a register above 15. -/
theorem wit_KeySkipsCompareTheWholeValue :
    (∃ k, (s0.setKey (some 15)).key = some k ∧ k.toNat = ((s0.setKey (some 15)).setReg 2 15 |>.reg 2).toNat) ∧
      ((s0.setReg 2 16).reg 2).toNat > 15 := ⟨⟨15, rfl, by decide +kernel⟩, by decide +kernel⟩

theorem wit_KeyWaitLoadsOrStays : (s0.setKey (some 15)).key = some 15 ∧ s0.key = none := by decide

theorem wit_FirstInstructionIsAt0x200 : ∃ t, create [0x12, 0x34] 0 Params.default = .next t := ⟨_, rfl⟩

/-- The longest image, and one byte more. -/
theorem wit_CreateLoadsTheImage :
    (List.replicate 3584 (0 : Byte)).length ≤ 3584 ∧ (List.replicate 3585 (0 : Byte)).length > 3584 := by
  rw [List.length_replicate, List.length_replicate]
  decide

theorem wit_HostWritesOnlyTimersAndKey :
    15 ≤ 15 ∧ 16 > 15 ∧ HostCall.setKeyPressed (some 16) ∈ [.tick, .setKeyPressed (some 16)] := by decide

end Sys2Proof.Tests
end

/-! PROOFS. The two ranged accesses of memory: `MemRead` and `MemWrite` (spec 20_memory.md R35 to R37). -/

namespace Sys2Proof.Machine

/-! ### The check of R35 at the bounds of memory, and what each access answers on either side of it -/

theorem rangeLegal_of_le {a n : Nat} (h : a + n ≤ 0x1000) : rangeLegal a n := by
  unfold rangeLegal
  omega

theorem not_rangeLegal_of_gt {a n : Nat} (hn : 1 ≤ n) (h : a + n - 1 > 0xFFF) : ¬ rangeLegal a n := by
  unfold rangeLegal
  omega

theorem memRead_eq_readList {m : Memory} {a n : Nat} (h : rangeLegal a n) :
    memRead m a n = .ok (Memory.readList m a n) :=
  ((memRead_cases m a n).resolve_right fun h' => h'.1 h).2

theorem memRead_eq_outOfBounds {m : Memory} {a n : Nat} (h : ¬ rangeLegal a n) :
    memRead m a n = .error (outOfBounds a) :=
  ((memRead_cases m a n).resolve_left fun h' => h h'.1).2

theorem memWrite_eq_writeList {m : Memory} {a : Nat} {vs : List Byte} (h : rangeLegal a vs.length) :
    memWrite m a vs = .ok (Memory.writeList m a vs) :=
  ((memWrite_cases m a vs).resolve_right fun h' => h'.1 h).2

theorem memWrite_eq_outOfBounds {m : Memory} {a : Nat} {vs : List Byte} (h : ¬ rangeLegal a vs.length) :
    memWrite m a vs = .error (outOfBounds a) :=
  ((memWrite_cases m a vs).resolve_left fun h' => h h'.1).2

theorem Memory.getElem?_readList {m : Memory} {a n k : Nat} (h : k < n) :
    (Memory.readList m a n)[k]? = some (Memory.read m (a + k)) := by
  rw [List.getElem?_eq_getElem (by simpa using h), Memory.getElem_readList]

theorem Memory.read_writeList_of_getElem? {m : Memory} {a k : Nat} {vs : List Byte} {b : Byte}
    (hm : Memory.wf m) (h : vs[k]? = some b) : Memory.read (Memory.writeList m a vs) (a + k) = b := by
  obtain ⟨hk, rfl⟩ := List.getElem?_eq_some_iff.1 h
  exact Memory.read_writeList_inside m a k vs hm.1 hk

/-- Settles O7: inside memory the answer is `Memory.readList`, whose `k`-th byte is `mem[a + k]`; outside it is
the failure of R35. -/
theorem memReadAnswersTheRange : Obligations.MemReadAnswersTheRange := by
  intro m a n
  refine ⟨fun h => ?_, fun hn h => ?_, ?_⟩
  · exact ⟨_, memRead_eq_readList (rangeLegal_of_le h), Memory.length_readList m a n,
      fun k hk => Memory.getElem?_readList hk⟩
  · exact memRead_eq_outOfBounds (not_rangeLegal_of_gt hn h)
  · exact memRead_eq_readList (.inl rfl)

/-- Settles O8: inside memory the answer is `Memory.writeList`, which keeps the canonical form, reads back as `v`
in the range and as before outside it; otherwise the check of R35 fails before any byte is written. -/
theorem memWriteWritesTheRange : Obligations.MemWriteWritesTheRange := by
  intro m a v hm
  refine ⟨fun h => ?_, fun hn h => ?_⟩
  · exact ⟨_, memWrite_eq_writeList (rangeLegal_of_le h), Memory.writeList_keeps_wf v hm h,
      fun k b hk => Memory.read_writeList_of_getElem? hm hk,
      fun c hc => Memory.read_writeList_outside m a c v hc⟩
  · exact memWrite_eq_outOfBounds (not_rangeLegal_of_gt hn h)

end Sys2Proof.Machine

/-! PROOFS. Instructions as bytes: what decoding consumes and what an encoding holds (spec 30_encoding.md R49). -/

namespace Sys2Proof.Machine

theorem length_encodeBytes (i : Instr) : (encodeBytes i).length = 2 := rfl

/-- Decoding looks at the first two bytes only and hands back the others. -/
theorem decodeBytes_cons_cons (hi lo : Byte) (rest : List Byte) :
    decodeBytes (hi :: lo :: rest) = .ok (decode (wordOfBytes hi lo), rest) := rfl

theorem encodeBytes_append (i : Instr) (rest : List Byte) :
    encodeBytes i ++ rest = highByte (encode i) :: lowByte (encode i) :: rest := rfl

/-- Decoding reads back the word of an instruction from its bytes, whatever bytes follow them. -/
theorem decodeBytes_encodeBytes_append (i : Instr) (rest : List Byte) :
    decodeBytes (encodeBytes i ++ rest) = .ok (decode (encode i), rest) := by
  rw [encodeBytes_append, decodeBytes_cons_cons, wordOfBytes_bytes]

/-- Settles O5: an encoding is the high and the low byte of a word, which decoding puts together again. -/
theorem everyInstructionIsTwoBytes : Obligations.EveryInstructionIsTwoBytes :=
  ⟨length_encodeBytes, decodeBytes_cons_cons, decodeBytes_encodeBytes_append⟩

end Sys2Proof.Machine

/-! PROOFS. What `step` keeps of a tick's answer (spec 40_decoder_and_tick.md R72, R73). -/

namespace Sys2Proof.Machine

theorem step_of_tick_next {s t : State} {i : Instr} (h : tick s = .next (i, t)) : step s = .next t :=
  congrArg stateOfTick h

/-- Forgetting the returned instruction neither adds nor hides a failure. -/
theorem stateOfTick_eq_fault_iff {o : Host.Outcome (Instr × State) Fault Refusal} {e : Fault} :
    stateOfTick o = .fault e ↔ o = .fault e := by
  cases o <;> simp [stateOfTick]

theorem step_eq_fault_iff {s : State} {e : Fault} : step s = .fault e ↔ tick s = .fault e :=
  stateOfTick_eq_fault_iff

/-- Settles O12: `tick_next` says what a successful tick ran; `step` is that tick without the instruction, which
a failing tick does not have. -/
theorem tickReturnsTheExecutedInstruction : Obligations.TickReturnsTheExecutedInstruction := by
  refine fun s => ⟨fun i t h => ?_, fun e => step_eq_fault_iff⟩
  obtain ⟨-, hdecode, hexec⟩ := tick_next h
  exact ⟨hdecode, hexec, step_of_tick_next h⟩

end Sys2Proof.Machine

/-! PROOFS. Control transfer: the no-op, the jumps and the compare skips (spec 41_control.md R78, R80, R82, R84 to
R86), and the fetch that fails after a jump to an illegal pc (40_decoder_and_tick.md R70). -/

namespace Sys2Proof.Machine

/-! ### A step at a pc where no fetch is legal -/

theorem not_fetchLegal_iff {pc : Word} : ¬ fetchLegal pc ↔ pc.toNat > 0xFFE ∨ pc.toNat % 2 = 1 := by
  unfold fetchLegal
  omega

theorem tick_eq_fault_of_not_fetchLegal {s : State} (h : ¬ fetchLegal s.pc) :
    tick s = .fault (.memoryOutOfBounds s.pc.toNat) := by
  have hfetch := ((fetch_cases s).resolve_left fun h' => h h'.1).2
  simp only [tick, hfetch]

theorem step_eq_fault_of_not_fetchLegal {s : State} (h : ¬ fetchLegal s.pc) :
    step s = .fault (.memoryOutOfBounds s.pc.toNat) :=
  step_eq_fault_iff.2 (tick_eq_fault_of_not_fetchLegal h)

/-! ### What each control transfer does to the pc -/

theorem exec_sys (nnn : Addr) (s : State) : exec (.sys nnn) s = .next (s.setPc (s.pc + 2)) := rfl

theorem exec_jp (nnn : Addr) (s : State) : exec (.jp nnn) s = .next (s.setPc (address nnn)) := rfl

theorem exec_jpV0 (nnn : Addr) (s : State) : exec (.jpV0 nnn) s = .next (s.setPc (addressPlusV0 nnn s)) := rfl

/-- `skip_if` with its condition as a proposition, the form in which the spec writes it (R83). -/
theorem skipIf_eq_of_iff {c : Bool} {p : Prop} [Decidable p] (h : c = true ↔ p) (s : State) :
    skipIf c s = .next (s.setPc (if p then s.pc + 4 else s.pc + 2)) := by
  rw [skipIf_eq, if_congr h rfl rfl]

theorem exec_seImm (x : RegIdx) (kk : Byte) (s : State) :
    exec (.seImm x kk) s = .next (s.setPc (if s.reg x = kk then s.pc + 4 else s.pc + 2)) :=
  skipIf_eq_of_iff beq_iff_eq s

theorem exec_sneImm (x : RegIdx) (kk : Byte) (s : State) :
    exec (.sneImm x kk) s = .next (s.setPc (if s.reg x ≠ kk then s.pc + 4 else s.pc + 2)) :=
  skipIf_eq_of_iff bne_iff_ne s

theorem exec_seReg (x y : RegIdx) (s : State) :
    exec (.seReg x y) s = .next (s.setPc (if s.reg x = s.reg y then s.pc + 4 else s.pc + 2)) :=
  skipIf_eq_of_iff beq_iff_eq s

theorem exec_seReg_self (x : RegIdx) (s : State) : exec (.seReg x x) s = .next (s.setPc (s.pc + 4)) := by
  rw [exec_seReg, if_pos rfl]

/-- Family 5 has one instruction, with selector 0 (R62). -/
theorem decode_family5_unknown {x y : RegIdx} {n : Nibble} (hn : n ≠ 0) :
    decode (wordXYN 0x5#4 x y n) = .unknown (wordXYN 0x5#4 x y n) := by
  rw [decode_family5 (fieldF_wordXYN _ _ _ _), fieldN_wordXYN, if_neg hn]

/-! ### The obligations -/

/-- Settles O23: `exec_sys` for every operand, and the one word 0x0000 decoded. -/
theorem sysOnlyAdvances : Obligations.SysOnlyAdvances :=
  ⟨exec_sys, by decide⟩

/-- Settles O25: the pc becomes `nnn`, so an odd `nnn` is an odd pc and 0xFFF is above the last legal one. -/
theorem jpSetsThePc : Obligations.JpSetsThePc := by
  intro nnn s
  refine ⟨_, exec_jp nnn s, rfl, toNat_address nnn, fun hbad => ⟨_, step_eq_fault_of_not_fetchLegal ?_⟩⟩
  rw [State.setPc_pc, not_fetchLegal_iff, toNat_address]
  omega

/-- Settles O26: the 16-bit sum is the natural one, since 0xFFF + 0xFF is far below 65536. -/
theorem jpV0AddsWithoutWrap : Obligations.JpV0AddsWithoutWrap := by
  intro nnn s
  have hsum := toNat_addressPlusV0 nnn s
  refine ⟨_, exec_jpV0 nnn s, rfl, hsum, ?_, fun hbad =>
    ⟨_, step_eq_fault_of_not_fetchLegal (not_fetchLegal_iff.2 hbad)⟩⟩
  rw [State.setPc_pc, hsum]
  omega

/-- Settles O30: each skip is `skip_if` of its comparison; a register always equals itself; 5xyn has no row but
the one of selector 0. -/
theorem compareSkipsAddFourOrTwo : Obligations.CompareSkipsAddFourOrTwo := fun x y kk s =>
  ⟨exec_seImm x kk s, exec_sneImm x kk s, exec_seReg x y s, exec_seReg_self x s,
    fun _ hn => decode_family5_unknown hn⟩

end Sys2Proof.Machine

/-! PROOFS. The instructions that load, add and combine registers: their write-backs (spec 42_alu.md R90, R91) and
what each of them writes back (R92, R93, R95 to R98). -/

namespace Sys2Proof.Machine

/-! ### The two write-backs: the register written, the flag if there is one, the rest unchanged -/

theorem wroteReg_setReg_setPc (s : State) (x : RegIdx) (b : Byte) :
    WroteReg s ((s.setReg x b).setPc (s.pc + 2)) x b.toNat := by
  refine ⟨rfl, ?_, fun k hk => ?_⟩
  · rw [State.reg_setPc, State.reg_setReg_self]
  · rw [State.reg_setPc, State.reg_setReg, if_neg hk]

/-- The flag is written after the result, so VF holds the flag whatever `x` is (R90). -/
theorem wroteRegFlag_setReg_setReg_setPc (s : State) (x : RegIdx) (b : Byte) (f : BitVec 1) :
    WroteRegFlag s (((s.setReg x b).setReg vf (f.zeroExtend 8)).setPc (s.pc + 2)) x b.toNat f.toNat := by
  refine ⟨rfl, ?_, fun hx => ?_, fun k hk hvf => ?_⟩
  · rw [State.reg_setPc, State.reg_setReg_self, toNat_flag]
  · rw [State.reg_setPc, State.reg_setReg, if_neg hx, State.reg_setReg_self]
  · rw [State.reg_setPc, State.reg_setReg, if_neg hvf, State.reg_setReg, if_neg hk]

theorem wroteReg_of_exec_eq_writeReg {i : Instr} {s : State} {x : RegIdx} {b : Byte} {n : Nat}
    (hexec : exec i s = writeReg x b s) (hb : b.toNat = n) : ∃ t, exec i s = .next t ∧ WroteReg s t x n :=
  ⟨_, hexec.trans (writeReg_eq x b s), hb ▸ wroteReg_setReg_setPc s x b⟩

theorem wroteRegFlag_of_exec_eq_writeRegFlag {i : Instr} {s : State} {x : RegIdx} {b : Byte} {f : BitVec 1}
    {n flag : Nat} (hexec : exec i s = writeRegFlag x b f s) (hb : b.toNat = n) (hf : f.toNat = flag) :
    ∃ t, exec i s = .next t ∧ WroteRegFlag s t x n flag :=
  ⟨_, hexec.trans (writeRegFlag_eq x b f s), hb ▸ hf ▸ wroteRegFlag_setReg_setReg_setPc s x b f⟩

/-! ### What each instruction writes back -/

theorem exec_ldImm (x : RegIdx) (kk : Byte) (s : State) : exec (.ldImm x kk) s = writeReg x kk s := rfl

theorem exec_addImm (x : RegIdx) (kk : Byte) (s : State) :
    exec (.addImm x kk) s = writeReg x (addBytes (s.reg x) kk) s := rfl

theorem exec_or (x y : RegIdx) (s : State) : exec (.or x y) s = writeReg x (s.reg x ||| s.reg y) s := rfl

theorem exec_and (x y : RegIdx) (s : State) : exec (.and x y) s = writeReg x (s.reg x &&& s.reg y) s := rfl

theorem exec_xor (x y : RegIdx) (s : State) : exec (.xor x y) s = writeReg x (s.reg x ^^^ s.reg y) s := rfl

theorem exec_addReg (x y : RegIdx) (s : State) : exec (.addReg x y) s =
    writeRegFlag x (addBytes (s.reg x) (s.reg y)) (carryFlag (s.reg x) (s.reg y)) s := rfl

theorem toNat_carryFlag (a b : Byte) : (carryFlag a b).toNat = if a.toNat + b.toNat > 255 then 1 else 0 := by
  simp only [carryFlag, toNat_flagOf, decide_eq_true_eq]

/-! ### The obligations -/

/-- Settles O32: both write back one register, the sum as `addBytes` has it, and no flag. -/
theorem immediatesLoadAndAdd : Obligations.ImmediatesLoadAndAdd := fun x kk s =>
  ⟨wroteReg_of_exec_eq_writeReg (exec_ldImm x kk s) rfl,
    wroteReg_of_exec_eq_writeReg (exec_addImm x kk s) (toNat_addBytes _ _)⟩

/-- Settles O34: each writes back one register and no flag; on one register twice, OR and AND are idempotent and
XOR cancels. -/
theorem logicalOperationsWriteX : Obligations.LogicalOperationsWriteX := fun x y s =>
  ⟨wroteReg_of_exec_eq_writeReg (exec_or x y s) (BitVec.toNat_or _ _),
    wroteReg_of_exec_eq_writeReg (exec_and x y s) (BitVec.toNat_and _ _),
    wroteReg_of_exec_eq_writeReg (exec_xor x y s) (BitVec.toNat_xor _ _),
    wroteReg_of_exec_eq_writeReg (exec_or x x s) (congrArg BitVec.toNat BitVec.or_self),
    wroteReg_of_exec_eq_writeReg (exec_and x x s) (congrArg BitVec.toNat BitVec.and_self),
    wroteReg_of_exec_eq_writeReg (exec_xor x x s) (congrArg BitVec.toNat BitVec.xor_self)⟩

/-- Settles O35: the write-back with a flag, of `addBytes` and the carry. -/
theorem addRegWritesSumAndCarry : Obligations.AddRegWritesSumAndCarry := fun x y s =>
  wroteRegFlag_of_exec_eq_writeRegFlag (exec_addReg x y s) (toNat_addBytes _ _) (toNat_carryFlag _ _)

end Sys2Proof.Machine

/-! PROOFS. The index register and the transfers between registers and memory (spec 43_index_memory.md R105, R108 to
R110). -/

namespace Sys2Proof.Machine

/-! ### A store at I: the bytes stored, the rest unchanged, or the failure of R35 -/

theorem storeAtIndex_eq_next {bytes : List Byte} {s : State} (h : rangeLegal s.i.toNat bytes.length) :
    storeAtIndex bytes s =
      .next ((s.setMem (Memory.writeList s.mem s.i.toNat bytes)).setPc (s.pc + 2)) := by
  simp only [storeAtIndex, indexBase, memWrite_eq_writeList h, State.advance_eq, State.setMem_pc]

theorem storeAtIndex_eq_fault {bytes : List Byte} {s : State} (h : ¬ rangeLegal s.i.toNat bytes.length) :
    storeAtIndex bytes s = .fault (.memoryOutOfBounds (max s.i.toNat 0x1000)) := by
  simp only [storeAtIndex, indexBase, memWrite_eq_outOfBounds h, outOfBounds, raise]

theorem stores_of_exec_eq_storeAtIndex {i : Instr} {s : State} {bytes : List Byte}
    (hexec : exec i s = storeAtIndex bytes s) (hm : Memory.wf s.mem) (h : s.i.toNat + bytes.length ≤ 0x1000) :
    ∃ t, exec i s = .next t ∧ t = { s with mem := t.mem, pc := s.pc + 2 } ∧
      (∀ k b, bytes[k]? = some b → t.byte (s.i.toNat + k) = b) ∧
      ∀ a, (a < s.i.toNat ∨ s.i.toNat + bytes.length ≤ a) → t.byte a = s.byte a :=
  ⟨_, hexec.trans (storeAtIndex_eq_next (rangeLegal_of_le h)), rfl,
    fun _ _ hk => Memory.read_writeList_of_getElem? hm hk,
    fun a ha => Memory.read_writeList_outside s.mem s.i.toNat a bytes ha⟩

/-! ### What each instruction does -/

theorem exec_ldI (nnn : Addr) (s : State) :
    exec (.ldI nnn) s = .next ((s.setI (address nnn)).setPc (s.pc + 2)) := rfl

theorem exec_ldB (x : RegIdx) (s : State) : exec (.ldB x) s = storeAtIndex (bcdDigits (s.reg x)) s := rfl

theorem exec_ldMemStore (x : RegIdx) (s : State) :
    exec (.ldMemStore x) s = storeAtIndex (regsUpTo x s) s := rfl

theorem exec_ldMemLoad_eq_next {x : RegIdx} {s : State} (h : s.i.toNat + x.toNat ≤ 0xFFF) :
    exec (.ldMemLoad x) s = .next
      ((loadRegsFrom 0 (Memory.readList s.mem s.i.toNat (x.toNat + 1)) s).setPc (s.pc + 2)) := by
  have hlegal : rangeLegal s.i.toNat (x.toNat + 1) := rangeLegal_of_le (by omega)
  have hpc := congrArg State.pc (loadRegsFrom_frame 0 (Memory.readList s.mem s.i.toNat (x.toNat + 1)) s)
  simp only [exec, execLdMemLoad, indexBase, bulkCount, memRead_eq_readList hlegal, State.advance_eq, hpc]

theorem exec_ldMemLoad_eq_fault {x : RegIdx} {s : State} (h : s.i.toNat + x.toNat > 0xFFF) :
    exec (.ldMemLoad x) s = .fault (.memoryOutOfBounds (max s.i.toNat 0x1000)) := by
  have hillegal : ¬ rangeLegal s.i.toNat (x.toNat + 1) := not_rangeLegal_of_gt (by omega) (by omega)
  simp only [exec, execLdMemLoad, indexBase, bulkCount, memRead_eq_outOfBounds hillegal, outOfBounds, raise]

/-! ### The bytes a store writes and a load reads, one by one -/

theorem getElem?_regsUpTo {x k : RegIdx} (s : State) (h : k.toNat ≤ x.toNat) :
    (regsUpTo x s)[k.toNat]? = some (s.reg k) := by
  have hk : k.toNat < (regsUpTo x s).length := by rw [length_regsUpTo]; omega
  rw [List.getElem?_eq_getElem hk, getElem_regsUpTo, BitVec.ofNat_toNat, BitVec.setWidth_eq]

/-- A load of V0 to Vx reaches exactly the registers up to Vx. -/
theorem reg_loadRegsFrom_readList (x k : RegIdx) (s : State) (a : Nat) :
    (loadRegsFrom 0 (Memory.readList s.mem a (x.toNat + 1)) s).reg k =
      if k.toNat ≤ x.toNat then s.byte (a + k.toNat) else s.reg k := by
  rw [reg_loadRegsFrom _ _ _ _ (by rw [Memory.length_readList]; omega), if_neg (Nat.not_lt_zero _), Nat.sub_zero]
  split
  · rw [Memory.getElem?_readList (by omega), Option.getD_some, State.byte]
  · rw [List.getElem?_eq_none (by rw [Memory.length_readList]; omega), Option.getD_none]

/-! ### The obligations -/

/-- Settles O41: `exec_ldI`, with the 12-bit operand widened. -/
theorem ldISetsTheIndex : Obligations.LdISetsTheIndex := fun nnn s =>
  ⟨_, exec_ldI nnn s, rfl, toNat_address nnn⟩

/-- Settles O43: a store of the three bytes `bcdDigits` at I; each digit is below 256, so its byte is the digit. -/
theorem ldBStoresThreeDigits : Obligations.LdBStoresThreeDigits := by
  intro x s
  refine ⟨fun hm h => ?_, fun h => ?_⟩
  · obtain ⟨t, hexec, hframe, hin, hout⟩ := stores_of_exec_eq_storeAtIndex (exec_ldB x s) hm
      (by rw [length_bcdDigits]; omega)
    refine ⟨t, hexec, hframe, ?_, ?_, ?_, hout⟩
    · exact (congrArg BitVec.toNat (hin 0 _ rfl)).trans (Nat.mod_eq_of_lt (by omega))
    · exact (congrArg BitVec.toNat (hin 1 _ rfl)).trans (Nat.mod_eq_of_lt (by omega))
    · exact (congrArg BitVec.toNat (hin 2 _ rfl)).trans (Nat.mod_eq_of_lt (by omega))
  · rw [exec_ldB]
    refine storeAtIndex_eq_fault (not_rangeLegal_of_gt ?_ ?_) <;> rw [length_bcdDigits] <;> omega

/-- Settles O44: a store at I of the `x + 1` bytes `regsUpTo`, whose byte `k` is V[k]. -/
theorem ldMemStoreStoresV0ToVx : Obligations.LdMemStoreStoresV0ToVx := by
  intro x s
  refine ⟨fun hm h => ?_, fun h => ?_⟩
  · obtain ⟨t, hexec, hframe, hin, hout⟩ := stores_of_exec_eq_storeAtIndex (exec_ldMemStore x s) hm
      (by rw [length_regsUpTo]; omega)
    refine ⟨t, hexec, hframe, fun k hk => hin _ _ (getElem?_regsUpTo s hk), fun a ha => hout a ?_⟩
    rw [length_regsUpTo]
    omega
  · rw [exec_ldMemStore]
    refine storeAtIndex_eq_fault (not_rangeLegal_of_gt ?_ ?_) <;> rw [length_regsUpTo] <;> omega

/-- Settles O45: the load writes registers only (`loadRegsFrom_frame`), those up to Vx from memory. -/
theorem ldMemLoadLoadsV0ToVx : Obligations.LdMemLoadLoadsV0ToVx := by
  intro x s
  refine ⟨fun h => ⟨_, exec_ldMemLoad_eq_next h, ?_, fun k hk => ?_, fun k hk => ?_⟩, exec_ldMemLoad_eq_fault⟩
  · rw [loadRegsFrom_frame]
    rfl
  · rw [State.reg_setPc, reg_loadRegsFrom_readList, if_pos hk]
  · rw [State.reg_setPc, reg_loadRegsFrom_readList, if_neg (by omega)]

end Sys2Proof.Machine

/-! PROOFS. The display instruction CLS (spec 44_display.md R120). -/

namespace Sys2Proof.Machine

theorem exec_cls (s : State) : exec .cls s = .next ((s.setFb clearFb).setPc (s.pc + 2)) := rfl

/-- Settles O48: `exec_cls`, and every byte of `clearFb` is 0. -/
theorem clsClearsTheFramebuffer : Obligations.ClsClearsTheFramebuffer := fun s =>
  ⟨_, exec_cls s, rfl, fbByte_clearFb⟩

end Sys2Proof.Machine

/-! PROOFS. The timer instructions LD Vx, DT, LD DT, Vx and LD ST, Vx (spec 45_timers_keys.md R125, R127, R128). -/

namespace Sys2Proof.Machine

theorem exec_ldVxDt (x : RegIdx) (s : State) : exec (.ldVxDt x) s = writeReg x s.dt s := rfl

theorem exec_ldDtVx (x : RegIdx) (s : State) :
    exec (.ldDtVx x) s = .next ((s.setDt (s.reg x)).setPc (s.pc + 2)) := rfl

theorem exec_ldStVx (x : RegIdx) (s : State) :
    exec (.ldStVx x) s = .next ((s.setSt (s.reg x)).setPc (s.pc + 2)) := rfl

/-- Settles O55: LD Vx, DT writes back one register; each of the others sets its timer and moves the pc. -/
theorem timerInstructionsMoveBytes : Obligations.TimerInstructionsMoveBytes := fun x s =>
  ⟨wroteReg_of_exec_eq_writeReg (exec_ldVxDt x s) rfl, exec_ldDtVx x s, exec_ldStVx x s⟩

end Sys2Proof.Machine

/-! PROOFS. A step at a pc where the fetch is legal, and the first step after reset (spec 40_decoder_and_tick.md R69,
R70; 70_reset_and_hazards.md R147). -/

namespace Sys2Proof.Machine

/-- At a legal pc a step executes what the two bytes there decode to (R69, R70). -/
theorem step_eq_exec_of_fetchLegal {s : State} (h : fetchLegal s.pc) :
    step s = exec (decode (wordOfBytes (s.byte s.pc.toNat) (s.byte (s.pc.toNat + 1)))) s := by
  have hfetch := ((fetch_cases s).resolve_right fun h' => h'.1 h).2
  simp only [step, tick, hfetch]
  cases exec (decode (wordOfBytes (s.byte s.pc.toNat) (s.byte (s.pc.toNat + 1)))) s <;> rfl

theorem step_eq_exec_of_pc_eq_0x200 {s : State} (h : s.pc = 0x200) :
    step s = exec (decode (s.byte 0x200 ++ s.byte 0x201)) s := by
  have hlegal : fetchLegal s.pc := h ▸ ⟨by decide, by decide⟩
  have hstep := step_eq_exec_of_fetchLegal hlegal
  rwa [h] at hstep

theorem create_next_pc {image : List Byte} {seed : Seed} {params : Params} {t : State}
    (h : create image seed params = .next t) : t.pc = 0x200 := by
  obtain ⟨-, hcreate⟩ | ⟨-, hcreate⟩ := create_cases image seed params
  · cases hcreate.symm.trans h
    rfl
  · cases hcreate.symm.trans h

/-- Settles O57: `create` and `State.reset` put the pc at 0x200, where a fetch is legal. -/
theorem firstInstructionIsAt0x200 : Obligations.FirstInstructionIsAt0x200 :=
  ⟨fun _ _ _ _ h => ⟨create_next_pc h, step_eq_exec_of_pc_eq_0x200 (create_next_pc h)⟩,
    rfl, step_eq_exec_of_pc_eq_0x200 rfl⟩

end Sys2Proof.Machine

/-! PROOFS. The decoder and the encoder are inverse (spec 40_decoder_and_tick.md R67, R68), the unknown set is what
decodes to `unknown` (30_encoding.md R62), and the output bus (R58). -/

namespace Sys2Proof.Machine

/-! ### Encoding a decoded word -/

theorem encode_decodeFamily8 {w : Word} (hf : fieldF w = 0x8#4) : encode (decodeFamily8 w) = w := by
  unfold decodeFamily8
  split
  case h_10 => rfl
  all_goals exact wordXYN_of_family hf ‹_›

theorem encode_decodeFamilyE {w : Word} (hf : fieldF w = 0xE#4) : encode (decodeFamilyE w) = w := by
  unfold decodeFamilyE
  split
  case h_3 => rfl
  all_goals exact wordXKK_of_family hf ‹_›

theorem encode_decodeFamilyF {w : Word} (hf : fieldF w = 0xF#4) : encode (decodeFamilyF w) = w := by
  unfold decodeFamilyF
  split
  case h_10 => rfl
  all_goals exact wordXKK_of_family hf ‹_›

/-- A choice on the low nibble between one instruction and `unknown`. -/
theorem encode_ite_fieldN {w : Word} {i : Instr} (hi : fieldN w = 0 → encode i = w) :
    encode (if fieldN w = 0 then i else .unknown w) = w := by
  split
  · exact hi ‹_›
  · rfl

theorem encode_decode (w : Word) : encode (decode w) = w := by
  rcases nibble_cases (fieldF w) with
    hf | hf | hf | hf | hf | hf | hf | hf | hf | hf | hf | hf | hf | hf | hf | hf
  · rw [decode_family0 hf]
    split
    · exact Eq.symm ‹_›
    · split
      · exact Eq.symm ‹_›
      · exact wordNNN_of_family hf
  · rw [decode_family1 hf]; exact wordNNN_of_family hf
  · rw [decode_family2 hf]; exact wordNNN_of_family hf
  · rw [decode_family3 hf]; exact wordXKK_of_family hf rfl
  · rw [decode_family4 hf]; exact wordXKK_of_family hf rfl
  · rw [decode_family5 hf]; exact encode_ite_fieldN (wordXYN_of_family hf)
  · rw [decode_family6 hf]; exact wordXKK_of_family hf rfl
  · rw [decode_family7 hf]; exact wordXKK_of_family hf rfl
  · rw [decode_family8 hf]; exact encode_decodeFamily8 hf
  · rw [decode_family9 hf]; exact encode_ite_fieldN (wordXYN_of_family hf)
  · rw [decode_familyA hf]; exact wordNNN_of_family hf
  · rw [decode_familyB hf]; exact wordNNN_of_family hf
  · rw [decode_familyC hf]; exact wordXKK_of_family hf rfl
  · rw [decode_familyD hf]; exact wordXYN_of_family hf rfl
  · rw [decode_familyE hf]; exact encode_decodeFamilyE hf
  · rw [decode_familyF hf]; exact encode_decodeFamilyF hf

/-! ### Decoding an encoded instruction -/

theorem decode_wordNNN_family0 {nnn : Addr} (h0E0 : nnn ≠ 0x0E0) (h0EE : nnn ≠ 0x0EE) :
    decode (wordNNN 0x0#4 nnn) = .sys nnn := by
  have hword {w : Word} (hnnn : nnn ≠ fieldNNN w) : wordNNN 0x0#4 nnn ≠ w := fun e =>
    hnnn (by rw [← e, fieldNNN_wordNNN])
  rw [decode_family0 (fieldF_wordNNN _ _), if_neg (hword (w := 0x00E0#16) h0E0),
    if_neg (hword (w := 0x00EE#16) h0EE), fieldNNN_wordNNN]

/-- An `unknown` carries the word it was decoded from, since encoding gives it back. -/
theorem eq_of_decode_eq_unknown {w w' : Word} (h : decode w = .unknown w') : w' = w := by
  have hencode := encode_decode w
  rwa [h] at hencode

/-- The encoding of an instruction with a row of its own is outside the unknown set. -/
theorem inUnknownSet_encode {i : Instr} (h : ∀ w, i ≠ .unknown w) : inUnknownSet (encode i) = false := by
  cases i with
  | unknown w => exact absurd rfl (h w)
  | cls | ret => rfl
  | sys nnn | jp nnn | call nnn | ldI nnn | jpV0 nnn => simp [encode, inUnknownSet]
  | seImm x kk | sneImm x kk | ldImm x kk | addImm x kk | rnd x kk => simp [encode, inUnknownSet]
  | seReg x y | sneReg x y | mov x y | or x y | and x y | xor x y | addReg x y | sub x y | shr x y | subn x y
  | shl x y | drw x y n => simp [encode, inUnknownSet]
  | skp x | sknp x | ldVxDt x | ldVxK x | ldDtVx x | ldStVx x | addI x | ldF x | ldB x | ldMemStore x
  | ldMemLoad x => simp [encode, inUnknownSet]

theorem decode_of_inUnknownSet {w : Word} (h : inUnknownSet w = true) : decode w = .unknown w := by
  by_cases hunknown : ∃ w', decode w = .unknown w'
  · obtain ⟨w', hw'⟩ := hunknown
    rwa [eq_of_decode_eq_unknown hw'] at hw'
  · have hmapped := inUnknownSet_encode (i := decode w) fun w' e => hunknown ⟨w', e⟩
    rw [encode_decode, h] at hmapped
    cases hmapped

theorem decode_encode {i : Instr} (h : wellFormed i = true) : decode (encode i) = i := by
  cases i with
  | sys nnn =>
    obtain ⟨h0E0, h0EE⟩ : nnn ≠ 0x0E0 ∧ nnn ≠ 0x0EE := by simpa [wellFormed] using h
    exact decode_wordNNN_family0 h0E0 h0EE
  | unknown w => exact decode_of_inUnknownSet h
  | cls | ret => rfl
  | jp nnn | call nnn | ldI nnn | jpV0 nnn =>
    simp [encode, decode_family1, decode_family2, decode_familyA, decode_familyB]
  | seImm x kk | sneImm x kk | ldImm x kk | addImm x kk | rnd x kk =>
    simp [encode, decode_family3, decode_family4, decode_family6, decode_family7, decode_familyC]
  | seReg x y | sneReg x y => simp [encode, decode_family5, decode_family9]
  | mov x y | or x y | and x y | xor x y | addReg x y | sub x y | shr x y | subn x y | shl x y =>
    simp [encode, decode_family8, decodeFamily8]
  | drw x y n => simp [encode, decode_familyD]
  | skp x | sknp x => simp [encode, decode_familyE, decodeFamilyE]
  | ldVxDt x | ldVxK x | ldDtVx x | ldStVx x | addI x | ldF x | ldB x | ldMemStore x | ldMemLoad x =>
    simp [encode, decode_familyF, decodeFamilyF]

/-! ### Every decoded instruction is well-formed -/

/-- `sys` is well-formed away from its two exceptions (R68). -/
theorem wellFormed_sys {nnn : Addr} (h0E0 : nnn ≠ 0x0E0) (h0EE : nnn ≠ 0x0EE) : wellFormed (.sys nnn) = true := by
  simp only [wellFormed, Bool.and_eq_true, bne_iff_ne]
  exact ⟨h0E0, h0EE⟩

theorem wellFormed_decode_family0 {w : Word} (hf : fieldF w = 0x0#4) : wellFormed (decode w) = true := by
  have hword : wordNNN 0x0#4 (fieldNNN w) = w := wordNNN_of_family hf
  rw [decode_family0 hf]
  split
  · rfl
  · split
    · rfl
    · have h0E0 : fieldNNN w ≠ 0x0E0 := fun e => absurd (e ▸ hword).symm ‹¬ w = 0x00E0#16›
      have h0EE : fieldNNN w ≠ 0x0EE := fun e => absurd (e ▸ hword).symm ‹¬ w = 0x00EE#16›
      exact wellFormed_sys h0E0 h0EE

theorem wellFormed_decodeFamily8 {w : Word} (hf : fieldF w = 0x8#4) : wellFormed (decodeFamily8 w) = true := by
  unfold decodeFamily8
  split
  case h_10 =>
    have hn := nibble_cases (fieldN w)
    simp_all [wellFormed, inUnknownSet]
  all_goals rfl

theorem wellFormed_decodeFamilyE {w : Word} (hf : fieldF w = 0xE#4) : wellFormed (decodeFamilyE w) = true := by
  unfold decodeFamilyE
  split
  case h_3 => simp_all [wellFormed, inUnknownSet]
  all_goals rfl

theorem wellFormed_decodeFamilyF {w : Word} (hf : fieldF w = 0xF#4) : wellFormed (decodeFamilyF w) = true := by
  unfold decodeFamilyF
  split
  case h_10 => simp_all [wellFormed, inUnknownSet]
  all_goals rfl

theorem wellFormed_ite_fieldN {w : Word} {i : Instr} (hi : wellFormed i = true)
    (hw : fieldN w ≠ 0 → inUnknownSet w = true) :
    wellFormed (if fieldN w = 0 then i else .unknown w) = true := by
  split
  · exact hi
  · exact hw ‹_›

theorem wellFormed_decode (w : Word) : wellFormed (decode w) = true := by
  rcases nibble_cases (fieldF w) with
    hf | hf | hf | hf | hf | hf | hf | hf | hf | hf | hf | hf | hf | hf | hf | hf
  · exact wellFormed_decode_family0 hf
  · rw [decode_family1 hf]; rfl
  · rw [decode_family2 hf]; rfl
  · rw [decode_family3 hf]; rfl
  · rw [decode_family4 hf]; rfl
  · rw [decode_family5 hf]; exact wellFormed_ite_fieldN rfl fun hn => by simp_all [inUnknownSet]
  · rw [decode_family6 hf]; rfl
  · rw [decode_family7 hf]; rfl
  · rw [decode_family8 hf]; exact wellFormed_decodeFamily8 hf
  · rw [decode_family9 hf]; exact wellFormed_ite_fieldN rfl fun hn => by simp_all [inUnknownSet]
  · rw [decode_familyA hf]; rfl
  · rw [decode_familyB hf]; rfl
  · rw [decode_familyC hf]; rfl
  · rw [decode_familyD hf]; rfl
  · rw [decode_familyE hf]; exact wellFormed_decodeFamilyE hf
  · rw [decode_familyF hf]; exact wellFormed_decodeFamilyF hf

theorem decode_eq_unknown_iff {w : Word} : decode w = .unknown w ↔ inUnknownSet w = true := by
  refine ⟨fun h => ?_, decode_of_inUnknownSet⟩
  have hwf := wellFormed_decode w
  rwa [h] at hwf

/-! ### The output bus -/

theorem tag_eq_35_iff {i : Instr} : tag i = 35 ↔ ∃ w, i = .unknown w := by
  cases i <;> simp [tag]

theorem decoderBus_tag_eq_35_iff {w : Word} : (decoderBus w).1 = 35 ↔ inUnknownSet w = true := by
  rw [← decode_eq_unknown_iff]
  refine tag_eq_35_iff.trans ⟨fun ⟨w', h⟩ => ?_, fun h => ⟨w, h⟩⟩
  rwa [eq_of_decode_eq_unknown h] at h

/-- The bus carries the ordinal of the instruction whose encoding is on it. -/
theorem decoderBus_encode_tag (i : Instr) (h : wellFormed i = true) : (decoderBus (encode i)).1 = tag i :=
  congrArg tag (decode_encode h)

/-! ### The obligations -/

/-- Settles O1: by the constructors of the value, each with the family and format of its row. -/
theorem decodeOfEncodeIsIdentity : Obligations.DecodeOfEncodeIsIdentity := fun _ => decode_encode

/-- Settles O2: by the family of the word; in each, `encode` writes back the fields `decode` read. -/
theorem encodeOfDecodeIsIdentity : Obligations.EncodeOfDecodeIsIdentity := encode_decode

/-- Settles O3: a well-formed `unknown` is one of a word of the set, and `decode` gives well-formed values only. -/
theorem unknownSetIsWhatDecodesToUnknown : Obligations.UnknownSetIsWhatDecodesToUnknown := fun w =>
  ⟨decode_eq_unknown_iff, fun _ => eq_of_decode_eq_unknown, wellFormed_decode w⟩

/-- Settles O4: each word listed is the encoding of its constructor, whose `tag` is the ordinal. -/
theorem decoderBusCarriesTagAndWord : Obligations.DecoderBusCarriesTagAndWord :=
  ⟨fun _ => ⟨rfl, decoderBus_tag_eq_35_iff⟩, fun nnn x y n kk =>
    ⟨fun h0E0 h0EE => decoderBus_encode_tag (.sys nnn) (wellFormed_sys h0E0 h0EE),
    decoderBus_encode_tag .cls rfl, decoderBus_encode_tag .ret rfl,
    decoderBus_encode_tag (.jp nnn) rfl, decoderBus_encode_tag (.call nnn) rfl,
    decoderBus_encode_tag (.seImm x kk) rfl, decoderBus_encode_tag (.sneImm x kk) rfl,
    decoderBus_encode_tag (.seReg x y) rfl, decoderBus_encode_tag (.ldImm x kk) rfl,
    decoderBus_encode_tag (.addImm x kk) rfl, decoderBus_encode_tag (.mov x y) rfl,
    decoderBus_encode_tag (.or x y) rfl, decoderBus_encode_tag (.and x y) rfl,
    decoderBus_encode_tag (.xor x y) rfl, decoderBus_encode_tag (.addReg x y) rfl,
    decoderBus_encode_tag (.sub x y) rfl, decoderBus_encode_tag (.shr x y) rfl,
    decoderBus_encode_tag (.subn x y) rfl, decoderBus_encode_tag (.shl x y) rfl,
    decoderBus_encode_tag (.sneReg x y) rfl, decoderBus_encode_tag (.ldI nnn) rfl,
    decoderBus_encode_tag (.jpV0 nnn) rfl, decoderBus_encode_tag (.rnd x kk) rfl,
    decoderBus_encode_tag (.drw x y n) rfl, decoderBus_encode_tag (.skp x) rfl,
    decoderBus_encode_tag (.sknp x) rfl, decoderBus_encode_tag (.ldVxDt x) rfl,
    decoderBus_encode_tag (.ldVxK x) rfl, decoderBus_encode_tag (.ldDtVx x) rfl,
    decoderBus_encode_tag (.ldStVx x) rfl, decoderBus_encode_tag (.addI x) rfl,
    decoderBus_encode_tag (.ldF x) rfl, decoderBus_encode_tag (.ldB x) rfl,
    decoderBus_encode_tag (.ldMemStore x) rfl, decoderBus_encode_tag (.ldMemLoad x) rfl⟩⟩

/-- Settles O6: nine words decoded. -/
theorem specWordsDecodeAsTabled : Obligations.SpecWordsDecodeAsTabled := by
  unfold Obligations.SpecWordsDecodeAsTabled
  decide

end Sys2Proof.Machine

/-! PROOFS. A step at a legal and at an illegal pc (spec 40_decoder_and_tick.md R69, R70), and the control transfers
CALL, RET, SNE Vx, Vy and `unknown` (R75; 41_control.md R79, R81, R87). -/

namespace Sys2Proof.Machine

theorem exec_unknown (w : Word) (s : State) : exec (.unknown w) s = .next (s.setPc (s.pc + 2)) := rfl

theorem exec_call_eq_next {nnn : Addr} {s : State} (h : s.stack.length < s.stackCapacity) :
    exec (.call nnn) s = .next ((s.setStack ((s.pc + 2) :: s.stack)).setPc (address nnn)) := by
  have hpush := ((push_cases s (s.pc + 2)).resolve_right fun h' => by omega).2
  simp only [exec, execCall, State.nextPc, hpush]

theorem exec_call_eq_fault {nnn : Addr} {s : State} (h : s.stackCapacity ≤ s.stack.length) :
    exec (.call nnn) s = .fault .stackOverflow := by
  have hpush := ((push_cases s (s.pc + 2)).resolve_left fun h' => by omega).2
  simp only [exec, execCall, State.nextPc, hpush, raise]

theorem exec_ret_eq_next {s : State} {a : Word} {rest : List Word} (h : s.stack = a :: rest) :
    exec .ret s = .next ((s.setStack rest).setPc a) := by
  simp only [exec, execRet, pop, h]

theorem exec_ret_eq_fault {s : State} (h : s.stack = []) : exec .ret s = .fault .stackUnderflow := by
  simp only [exec, execRet, pop, h, raise]

theorem exec_sneReg (x y : RegIdx) (s : State) :
    exec (.sneReg x y) s = .next (s.setPc (if s.reg x ≠ s.reg y then s.pc + 4 else s.pc + 2)) :=
  skipIf_eq_of_iff bne_iff_ne s

theorem exec_sneReg_self (x : RegIdx) (s : State) : exec (.sneReg x x) s = .next (s.setPc (s.pc + 2)) := by
  rw [exec_sneReg, if_neg (not_not.2 rfl)]

/-- Family 9 has one instruction, with selector 0 (R62, decision D6). -/
theorem decode_family9_unknown {x y : RegIdx} {n : Nibble} (hn : n ≠ 0) :
    decode (wordXYN 0x9#4 x y n) = .unknown (wordXYN 0x9#4 x y n) := by
  rw [decode_family9 (fieldF_wordXYN _ _ _ _), fieldN_wordXYN, if_neg hn]

/-! ### The obligations -/

/-- Settles O10: `step_eq_exec_of_fetchLegal`, with the two bounds of R70 as one condition. -/
theorem stepRunsTheDecodedInstruction : Obligations.StepRunsTheDecodedInstruction := fun _ hle heven =>
  step_eq_exec_of_fetchLegal ⟨hle, heven⟩

/-- Settles O11: such a pc is exactly one at which no fetch is legal. -/
theorem illegalFetchFaultsWithThePc : Obligations.IllegalFetchFaultsWithThePc := fun _ h =>
  ⟨tick_eq_fault_of_not_fetchLegal (not_fetchLegal_iff.2 h),
    step_eq_fault_of_not_fetchLegal (not_fetchLegal_iff.2 h)⟩

/-- Settles O24: `exec_unknown`. -/
theorem unknownOnlyAdvances : Obligations.UnknownOnlyAdvances := exec_unknown

/-- Settles O27: the two answers of CALL, below the capacity and at it. -/
theorem callPushesNextAndJumps : Obligations.CallPushesNextAndJumps := fun nnn _ =>
  ⟨fun h => ⟨_, exec_call_eq_next h, rfl, toNat_address nnn⟩, fun h => exec_call_eq_fault h.ge⟩

/-- Settles O28: the two answers of RET, by the stack. -/
theorem retPopsIntoThePc : Obligations.RetPopsIntoThePc :=
  ⟨fun _ _ _ h => exec_ret_eq_next h, fun _ h => exec_ret_eq_fault h⟩

/-- Settles O29: the completed CALL left the caller's `pc + 2` on top of the caller's stack. -/
theorem retAfterCallResumesTheCaller : Obligations.RetAfterCallResumesTheCaller := by
  intro nnn s t p h
  obtain hlt | hge := Nat.lt_or_ge s.stack.length s.stackCapacity
  · cases (exec_call_eq_next hlt).symm.trans h
    exact exec_ret_eq_next rfl
  · cases (exec_call_eq_fault hge).symm.trans h

/-- Settles O31: `skip_if` of the comparison; a register never differs from itself; 9xyn has no row but the one of
selector 0. -/
theorem sneRegSkipsOnDifferentRegisters : Obligations.SneRegSkipsOnDifferentRegisters := fun x y s =>
  ⟨exec_sneReg x y s, exec_sneReg_self x s, fun _ hn => decode_family9_unknown hn⟩

end Sys2Proof.Machine

/-! PROOFS. The instructions that copy, subtract, shift and draw a random byte (spec 42_alu.md R94, R99 to R103). -/

namespace Sys2Proof.Machine

theorem exec_mov (x y : RegIdx) (s : State) : exec (.mov x y) s = writeReg x (s.reg y) s := rfl

theorem exec_sub (x y : RegIdx) (s : State) : exec (.sub x y) s =
    writeRegFlag x (subBytes (s.reg x) (s.reg y)) (noBorrowFlag s.subEqFlag (s.reg x) (s.reg y)) s := rfl

theorem exec_subn (x y : RegIdx) (s : State) : exec (.subn x y) s =
    writeRegFlag x (subBytes (s.reg y) (s.reg x)) (noBorrowFlag s.subEqFlag (s.reg y) (s.reg x)) s := rfl

theorem exec_shr (x y : RegIdx) (s : State) : exec (.shr x y) s =
    writeRegFlag x (shrByte (shrOperand x y s) (shrAmount y s)) (shrFlag (shrOperand x y s)) s := rfl

theorem exec_shl (x y : RegIdx) (s : State) :
    exec (.shl x y) s = writeRegFlag x (shlByte (s.reg x)) (shlFlag (s.reg x)) s := rfl

theorem exec_rnd (x : RegIdx) (kk : Byte) (s : State) : exec (.rnd x kk) s =
    writeReg x ((Config.rngNext s.rng).1 &&& kk) (s.setRng (Config.rngNext s.rng).2) := rfl

/-! ### The results and flags as numbers -/

theorem toNat_noBorrowFlag (f : BitVec 1) (a b : Byte) :
    (noBorrowFlag f a b).toNat = if a.toNat > b.toNat then 1 else if a = b then f.toNat else 0 := by
  unfold noBorrowFlag
  split
  · rfl
  · split <;> rfl

theorem toNat_shrByte (op : Byte) (n : Nat) : (shrByte op n).toNat = op.toNat / 2 ^ n := by
  rw [shrByte, BitVec.toNat_ushiftRight, Nat.shiftRight_eq_div_pow]

theorem toNat_shrFlag (op : Byte) : (shrFlag op).toNat = op.toNat % 2 := by
  simp only [shrFlag, BitVec.extractLsb'_toNat, Nat.shiftRight_zero, pow_one]

theorem toNat_shlByte (op : Byte) : (shlByte op).toNat = op.toNat * 2 % 256 := by
  simp only [shlByte, BitVec.toNat_shiftLeft, Nat.shiftLeft_eq, pow_one, Nat.reducePow]

theorem toNat_shlFlag (op : Byte) : (shlFlag op).toNat = op.toNat / 128 := by
  simp only [shlFlag, BitVec.extractLsb'_toNat, Nat.shiftRight_eq_div_pow, pow_one, Nat.reducePow]
  omega

/-! ### The obligations -/

/-- Settles O33: one register written, from V[y], and no flag. -/
theorem movCopiesYIntoX : Obligations.MovCopiesYIntoX := fun x y s =>
  wroteReg_of_exec_eq_writeReg (exec_mov x y s) rfl

/-- Settles O36: the write-back with a flag; SUBN is SUB with the operands exchanged. -/
theorem subtractionsWriteDifferenceAndNoBorrow : Obligations.SubtractionsWriteDifferenceAndNoBorrow := by
  refine fun x y s => ⟨?_, ?_⟩
  · exact wroteRegFlag_of_exec_eq_writeRegFlag (exec_sub x y s) (toNat_subBytes _ _) (toNat_noBorrowFlag _ _ _)
  · exact wroteRegFlag_of_exec_eq_writeRegFlag (exec_subn x y s) (toNat_subBytes _ _)
      ((toNat_noBorrowFlag _ _ _).trans (if_congr Iff.rfl rfl (if_congr eq_comm rfl rfl)))

/-- Settles O37: by the mode, which chooses the operand and the distance. -/
theorem shrShiftsUnderItsMode : Obligations.ShrShiftsUnderItsMode := by
  intro x y s
  obtain ⟨t, hexec, hwrote⟩ :=
    wroteRegFlag_of_exec_eq_writeRegFlag (exec_shr x y s) (toNat_shrByte _ _) (toNat_shrFlag _)
  refine ⟨t, hexec, ?_⟩
  unfold shrOperand shrAmount State.shrMode at hwrote
  cases hmode : s.params.shrMode <;> simpa only [hmode, pow_one] using hwrote

/-- Settles O38: the write-back with a flag, of V[x] shifted left and the bit shifted out. -/
theorem shlDoublesX : Obligations.ShlDoublesX := fun x y s =>
  wroteRegFlag_of_exec_eq_writeRegFlag (exec_shl x y s) (toNat_shlByte _) (toNat_shlFlag _)

/-- What a completed instruction with a flag leaves in V[x] and VF, when they are two registers. -/
theorem reg_of_wroteRegFlag {i : Instr} {s t : State} {x : RegIdx} {n flag : Nat}
    (hwrote : ∃ u, exec i s = .next u ∧ WroteRegFlag s u x n flag) (hexec : exec i s = .next t) (hx : x ≠ vf) :
    (t.reg x).toNat = n ∧ (t.reg vf).toNat = flag := by
  obtain ⟨u, hu, -, hflag, hreg, -⟩ := hwrote
  cases hu.symm.trans hexec
  exact ⟨hreg hx, hflag⟩

/-- Settles O39: from what each instruction writes to V[x] and VF, by arithmetic on the two numbers. -/
theorem resultAndFlagDetermineTheExactValue : Obligations.ResultAndFlagDetermineTheExactValue := by
  intro x y s t hx
  refine ⟨fun h => ?_, fun h hne => ?_, fun h hne => ?_, fun h => ?_, fun h hmode => ?_⟩
  · obtain ⟨hres, hflag⟩ := reg_of_wroteRegFlag (addRegWritesSumAndCarry x y s) h hx
    rw [hres, hflag]
    split <;> omega
  · obtain ⟨hres, hflag⟩ := reg_of_wroteRegFlag (subtractionsWriteDifferenceAndNoBorrow x y s).1 h hx
    have hnat : (s.reg x).toNat ≠ (s.reg y).toNat := fun e => hne (BitVec.eq_of_toNat_eq e)
    rw [hres, hflag, if_neg hne]
    split <;> omega
  · obtain ⟨hres, hflag⟩ := reg_of_wroteRegFlag (subtractionsWriteDifferenceAndNoBorrow x y s).2 h hx
    have hnat : (s.reg x).toNat ≠ (s.reg y).toNat := fun e => hne (BitVec.eq_of_toNat_eq e)
    rw [hres, hflag, if_neg hne]
    split <;> omega
  · obtain ⟨hres, hflag⟩ := reg_of_wroteRegFlag (shlDoublesX x y s) h hx
    rw [hres, hflag]
    omega
  · have hshr := shrShiftsUnderItsMode x y s
    simp only [hmode] at hshr
    obtain ⟨hres, hflag⟩ := reg_of_wroteRegFlag hshr h hx
    rw [hres, hflag]
    omega

/-- Settles O40: the generator is set first, then one register is written back. -/
theorem rndMasksOneDraw : Obligations.RndMasksOneDraw := by
  intro x kk s
  obtain ⟨hframe, -, hother⟩ := wroteReg_setReg_setPc (s.setRng (Config.rngNext s.rng).2) x
    ((Config.rngNext s.rng).1 &&& kk)
  refine ⟨_, (exec_rnd x kk s).trans (writeReg_eq _ _ _), hframe, ?_, hother⟩
  rw [State.reg_setPc, State.reg_setReg_self]

end Sys2Proof.Machine

/-! PROOFS. The index updates from a register (spec 43_index_memory.md R106, R107), the draw instruction
(44_display.md R119), and the key instructions (45_timers_keys.md R122 to R124, R126). -/

namespace Sys2Proof.Machine

theorem exec_addI (x : RegIdx) (s : State) :
    exec (.addI x) s = .next ((s.setI (indexPlusReg x s)).setPc (s.pc + 2)) := rfl

theorem exec_ldF (x : RegIdx) (s : State) :
    exec (.ldF x) s = .next ((s.setI (Config.glyphAddr (s.reg x))).setPc (s.pc + 2)) := rfl

theorem toNat_indexPlusReg (x : RegIdx) (s : State) :
    (indexPlusReg x s).toNat = (s.i.toNat + (s.reg x).toNat) % 65536 := by
  simp [indexPlusReg, BitVec.toNat_add]

/-- The draw of a DRW whose sprite is inside memory. -/
def drwDraw (x y : RegIdx) (n : Nibble) (s : State) : Framebuffer × Bool :=
  draw s.fb (s.reg x) (s.reg y) (Memory.readList s.mem s.i.toNat n.toNat)

theorem exec_drw_eq_next {x y : RegIdx} {n : Nibble} {s : State} (h : rangeLegal s.i.toNat n.toNat) :
    exec (.drw x y n) s = .next (((s.setFb (drwDraw x y n s).1).setReg vf
      ((flagOf (drwDraw x y n s).2).zeroExtend 8)).setPc (s.pc + 2)) := by
  simp only [exec, execDrw, indexBase, memRead_eq_readList h]
  rfl

theorem exec_drw_eq_fault {x y : RegIdx} {n : Nibble} {s : State} (h : ¬ rangeLegal s.i.toNat n.toNat) :
    exec (.drw x y n) s = .fault (.memoryOutOfBounds (max s.i.toNat 0x1000)) := by
  simp only [exec, execDrw, indexBase, memRead_eq_outOfBounds h, outOfBounds, raise]

theorem drwDraw_height_zero {x y : RegIdx} {n : Nibble} (s : State) (hn : n.toNat = 0) :
    drwDraw x y n s = (s.fb, false) := by
  rw [drwDraw, hn]
  rfl

theorem exec_skp (x : RegIdx) (s : State) :
    exec (.skp x) s = .next (s.setPc (if keyIs s (s.reg x) then s.pc + 4 else s.pc + 2)) := skipIf_eq _ s

theorem exec_sknp (x : RegIdx) (s : State) :
    exec (.sknp x) s = .next (s.setPc (if keyIs s (s.reg x) then s.pc + 2 else s.pc + 4)) := by
  have hskip : exec (.sknp x) s = skipIf (!keyIs s (s.reg x)) s := rfl
  rw [hskip, skipIf_eq]
  cases keyIs s (s.reg x) <;> rfl

/-- A key is at most 15 (R122). -/
theorem keyIs_eq_false_of_gt {s : State} {v : Byte} (h : v.toNat > 15) : keyIs s v = false := by
  refine Bool.eq_false_iff.2 fun hkey => ?_
  obtain ⟨k, -, hk⟩ := (keyIs_iff s v).1 hkey
  omega

theorem exec_ldVxK_eq_writeReg {x : RegIdx} {s : State} {k : Key} (h : s.key = some k) :
    exec (.ldVxK x) s = writeReg x (k.zeroExtend 8) s := by
  simp only [exec, execLdVxK, h]

theorem exec_ldVxK_of_no_key {x : RegIdx} {s : State} (h : s.key = none) : exec (.ldVxK x) s = .next s := by
  simp only [exec, execLdVxK, h]

theorem toNat_zeroExtend_key (k : Key) : (k.zeroExtend 8).toNat = k.toNat :=
  BitVec.toNat_setWidth_of_le (by decide)

/-! ### The obligations -/

/-- Settles O42: `exec_addI`, with the sum as a number, and `exec_ldF`. -/
theorem indexUpdatesFromARegister : Obligations.IndexUpdatesFromARegister := fun x s =>
  ⟨⟨_, exec_addI x s, rfl, toNat_indexPlusReg x s⟩, exec_ldF x s⟩

/-- Settles O49: the sprite is `Memory.readList` at I; the framebuffer is written first and the collision into VF
second. -/
theorem drwDrawsTheSpriteAtI : Obligations.DrwDrawsTheSpriteAtI := by
  intro x y n s
  refine ⟨fun h => ⟨_, Memory.readList s.mem s.i.toNat n.toNat, exec_drw_eq_next h, Memory.length_readList _ _ _,
    fun k hk => Memory.getElem?_readList hk, rfl, ?_, fun hn => ⟨?_, ?_⟩, fun k hk => ?_⟩,
    fun hn h => exec_drw_eq_fault (not_rangeLegal_of_gt hn h)⟩
  · rw [State.reg_setPc, State.reg_setReg_self, toNat_flag, toNat_flagOf]
    rfl
  · rw [drwDraw_height_zero s hn]
    rfl
  · rw [State.reg_setPc, State.reg_setReg_self, drwDraw_height_zero s hn]
    rfl
  · rw [State.reg_setPc, State.reg_setReg, if_neg hk]
    rfl

/-- Settles O54: both skips test `keyIs` of V[x], which `keyIs_iff` spells out. -/
theorem keySkipsCompareTheWholeValue : Obligations.KeySkipsCompareTheWholeValue := fun x s =>
  ⟨keyIs s (s.reg x), keyIs_iff s _, exec_skp x s, exec_sknp x s, keyIs_eq_false_of_gt⟩

/-- Settles O56: by the pressed key. -/
theorem keyWaitLoadsOrStays : Obligations.KeyWaitLoadsOrStays := fun _ _ =>
  ⟨fun k hk => wroteReg_of_exec_eq_writeReg (exec_ldVxK_eq_writeReg hk) (toNat_zeroExtend_key k),
    exec_ldVxK_of_no_key⟩

end Sys2Proof.Machine

/-! PROOFS. What `exec` and `tick` can answer (spec 60_exceptions.md R129 to R133): an instruction fails with its one
listed failure or completes, and a failing tick fails again. -/

namespace Sys2Proof.Machine

theorem rangeFailure_of_legal {s : State} {n : Nat} (h : rangeLegal s.i.toNat n) : rangeFailure s n = none :=
  if_pos h

theorem rangeFailure_of_not_legal {s : State} {n : Nat} (h : ¬ rangeLegal s.i.toNat n) :
    rangeFailure s n = some (.memoryOutOfBounds (max s.i.toNat 0x1000)) := if_neg h

/-- An access at I of as many bytes as the check of R35 was made for. -/
theorem rangeLegal_bulk_iff {a : Nat} {x : RegIdx} : rangeLegal a (x.toNat + 1) ↔ a + x.toNat ≤ 0xFFF := by
  unfold rangeLegal
  omega

theorem storeAtIndex_cases (bytes : List Byte) (s : State) :
    (∃ e, rangeFailure s bytes.length = some e ∧ storeAtIndex bytes s = .fault e) ∨
      (rangeFailure s bytes.length = none ∧ ∃ t, storeAtIndex bytes s = .next t) := by
  by_cases h : rangeLegal s.i.toNat bytes.length
  · exact .inr ⟨rangeFailure_of_legal h, _, storeAtIndex_eq_next h⟩
  · exact .inl ⟨_, rangeFailure_of_not_legal h, storeAtIndex_eq_fault h⟩

/-- Everything `exec` can answer: the listed failure, or a next state if there is none. It never refuses. -/
theorem exec_cases (i : Instr) (s : State) :
    (∃ e, execFailure i s = some e ∧ exec i s = .fault e) ∨
      (execFailure i s = none ∧ ∃ t, exec i s = .next t) := by
  cases i with
  | call nnn =>
    obtain hlt | hge := Nat.lt_or_ge s.stack.length s.stackCapacity
    · exact .inr ⟨if_pos hlt, _, exec_call_eq_next hlt⟩
    · exact .inl ⟨_, if_neg hge.not_gt, exec_call_eq_fault hge⟩
  | ret =>
    cases hstack : s.stack with
    | nil => exact .inl ⟨_, if_pos hstack, exec_ret_eq_fault hstack⟩
    | cons a rest => exact .inr ⟨if_neg (by simp [hstack]), _, exec_ret_eq_next hstack⟩
  | drw x y n =>
    by_cases h : rangeLegal s.i.toNat n.toNat
    · exact .inr ⟨rangeFailure_of_legal h, _, exec_drw_eq_next h⟩
    · exact .inl ⟨_, rangeFailure_of_not_legal h, exec_drw_eq_fault h⟩
  | ldMemLoad x =>
    obtain hgt | hle := Nat.lt_or_ge 0xFFF (s.i.toNat + x.toNat)
    · exact .inl ⟨_, rangeFailure_of_not_legal (mt rangeLegal_bulk_iff.1 hgt.not_ge), exec_ldMemLoad_eq_fault hgt⟩
    · exact .inr ⟨rangeFailure_of_legal (rangeLegal_bulk_iff.2 hle), _, exec_ldMemLoad_eq_next hle⟩
  | ldB x => exact storeAtIndex_cases (bcdDigits (s.reg x)) s
  | ldMemStore x =>
    have hstore := storeAtIndex_cases (regsUpTo x s) s
    rwa [length_regsUpTo] at hstore
  | ldVxK x =>
    cases hkey : s.key with
    | none => exact .inr ⟨rfl, _, exec_ldVxK_of_no_key hkey⟩
    | some k => exact .inr ⟨rfl, _, exec_ldVxK_eq_writeReg hkey⟩
  | sys | cls | jp | jpV0 | seImm | sneImm | seReg | sneReg | skp | sknp | ldImm | addImm | mov | or | and | xor
  | addReg | sub | shr | subn | shl | rnd | ldI | addI | ldF | ldVxDt | ldDtVx | ldStVx | unknown =>
    exact .inr ⟨rfl, _, rfl⟩

/-- Settles O14: the two cases of `exec_cases`, each of which excludes the other's premise. -/
theorem execFailsExactlyAsListed : Obligations.ExecFailsExactlyAsListed := by
  intro i s
  obtain ⟨e, hfail, hexec⟩ | ⟨hnone, hnext⟩ := exec_cases i s
  · refine ⟨fun e' he' => ?_, fun hnone => ?_⟩
    · cases hfail.symm.trans he'
      exact hexec
    · cases hfail.symm.trans hnone
  · refine ⟨fun e he => ?_, fun _ => hnext⟩
    cases hnone.symm.trans he

/-- The word a legal fetch reads (R69). -/
def fetchedWord (s : State) : Word := wordOfBytes (s.byte s.pc.toNat) (s.byte (s.pc.toNat + 1))

theorem tick_of_exec_next {s t : State} (hl : fetchLegal s.pc) (h : exec (decode (fetchedWord s)) s = .next t) :
    tick s = .next (decode (fetchedWord s), t) := by
  have hfetch : fetch s = .ok (fetchedWord s) := if_pos hl
  simp only [tick, hfetch, h]

theorem tick_of_exec_fault {s : State} {e : Fault} (hl : fetchLegal s.pc)
    (h : exec (decode (fetchedWord s)) s = .fault e) : tick s = .fault e := by
  have hfetch : fetch s = .ok (fetchedWord s) := if_pos hl
  simp only [tick, hfetch, h]

/-- The one failure a tick can have: of its fetch, or of the fetched instruction. -/
def tickFailure (s : State) : Option Fault :=
  if fetchLegal s.pc then execFailure (decode (fetchedWord s)) s else some (.memoryOutOfBounds s.pc.toNat)

/-- Everything a tick can answer. -/
theorem tick_cases (s : State) :
    (∃ e, tickFailure s = some e ∧ tick s = .fault e) ∨
      (tickFailure s = none ∧ ∃ i t, tick s = .next (i, t)) := by
  by_cases hl : fetchLegal s.pc
  · have hfail : tickFailure s = execFailure (decode (fetchedWord s)) s := if_pos hl
    rw [hfail]
    obtain ⟨e, he, hexec⟩ | ⟨hnone, t, hexec⟩ := exec_cases (decode (fetchedWord s)) s
    · exact .inl ⟨e, he, tick_of_exec_fault hl hexec⟩
    · exact .inr ⟨hnone, _, t, tick_of_exec_next hl hexec⟩
  · exact .inl ⟨_, if_neg hl, tick_eq_fault_of_not_fetchLegal hl⟩

theorem tick_eq_fault_iff {s : State} {e : Fault} : tick s = .fault e ↔ tickFailure s = some e := by
  obtain ⟨e', he', htick⟩ | ⟨hnone, i, t, htick⟩ := tick_cases s
  · simp [he', htick]
  · simp [hnone, htick]

/-- No check reads the key or a timer. -/
theorem execFailure_host_fields (i : Instr) (s : State) (key : Option Key) (dt st : Byte) :
    execFailure i { s with key := key, dt := dt, st := st } = execFailure i s := by
  cases i <;> rfl

theorem tickFailure_host_fields (s : State) (key : Option Key) (dt st : Byte) :
    tickFailure { s with key := key, dt := dt, st := st } = tickFailure s :=
  if_congr Iff.rfl (execFailure_host_fields _ s key dt st) rfl

theorem apply_tick_of_fault {s : State} {e : Fault} (h : tick s = .fault e) :
    HostCall.apply .tick s = .ok (s, .err e) := congrArg (HostStep.ofTick s) h

theorem apply_tick_of_next {s t : State} {i : Instr} (h : tick s = .next (i, t)) :
    HostCall.apply .tick s = .ok (t, .ok i) := congrArg (HostStep.ofTick s) h

/-- Settles O18: the answer is an error only for a failing tick, whose failure reads neither the key nor the timers. -/
theorem failedTickChangesNothingAndRepeats : Obligations.FailedTickChangesNothingAndRepeats := by
  intro s t e h
  obtain ⟨e', he', htick⟩ | ⟨-, i, u, htick⟩ := tick_cases s
  · cases (apply_tick_of_fault htick).symm.trans h
    refine ⟨rfl, fun key dt st => apply_tick_of_fault ?_⟩
    rw [tick_eq_fault_iff, tickFailure_host_fields, he']
  · cases (apply_tick_of_next htick).symm.trans h

end Sys2Proof.Machine

/-! PROOFS. The frame of every instruction (spec 10_state.md R24, R28, R29): which part of the state it may write. -/

namespace Sys2Proof.Machine

/-- The writers of I (R29). -/
def writesIndex (i : Instr) : Prop := (∃ nnn, i = .ldI nnn) ∨ (∃ x, i = .addI x) ∨ ∃ x, i = .ldF x

/-- The writers of the stack (R29). -/
def writesStack (i : Instr) : Prop := i = .ret ∨ ∃ nnn, i = .call nnn

/-- The writers of the framebuffer (R29). -/
def writesFb (i : Instr) : Prop := i = .cls ∨ ∃ x y n, i = .drw x y n

/-- `t` differs from `s` only where `i` is listed as writing; the pc is not framed. -/
structure Frame (i : Instr) (s t : State) : Prop where
  reg : ∀ k, ¬ writesReg i k → t.reg k = s.reg k
  byte : ∀ a, (a < indexBase s ∨ indexBase s + storeLength i ≤ a) → t.byte a = s.byte a
  index : ¬ writesIndex i → t.i = s.i
  stack : ¬ writesStack i → t.stack = s.stack
  fb : ¬ writesFb i → t.fb = s.fb
  rng : (∀ x kk, i ≠ .rnd x kk) → t.rng = s.rng
  key : t.key = s.key
  params : t.params = s.params
  dt : (∀ x, i ≠ .ldDtVx x) → t.dt = s.dt
  st : (∀ x, i ≠ .ldStVx x) → t.st = s.st

/-! ### Each update of the state keeps the frame of an instruction listed as making it -/

section

variable {i : Instr} {s t : State}

theorem Frame.refl : Frame i s s :=
  ⟨fun _ _ => rfl, fun _ _ => rfl, fun _ => rfl, fun _ => rfl, fun _ => rfl, fun _ => rfl, rfl, rfl, fun _ => rfl,
    fun _ => rfl⟩

theorem Frame.setPc (h : Frame i s t) (w : Word) : Frame i s (t.setPc w) := { h with }

theorem Frame.advance (h : Frame i s t) : Frame i s t.advance := h.setPc t.nextPc

theorem Frame.setReg (h : Frame i s t) {x : RegIdx} (hx : writesReg i x) (b : Byte) : Frame i s (t.setReg x b) :=
  { h with
    reg := fun k hk => by
      have hne : k ≠ x := fun e => hk (e ▸ hx)
      rw [State.reg_setReg, if_neg hne, h.reg k hk] }

theorem Frame.setI (h : Frame i s t) (hi : writesIndex i) (w : Word) : Frame i s (t.setI w) :=
  { h with index := fun hn => absurd hi hn }

theorem Frame.setStack (h : Frame i s t) (hi : writesStack i) (l : List Word) : Frame i s (t.setStack l) :=
  { h with stack := fun hn => absurd hi hn }

theorem Frame.setFb (h : Frame i s t) (hi : writesFb i) (f : Framebuffer) : Frame i s (t.setFb f) :=
  { h with fb := fun hn => absurd hi hn }

theorem Frame.setRng {x : RegIdx} {kk : Byte} (h : Frame (.rnd x kk) s t) (r : Rng) :
    Frame (.rnd x kk) s (t.setRng r) := { h with rng := fun hn => absurd rfl (hn x kk) }

theorem Frame.setDt {x : RegIdx} (h : Frame (.ldDtVx x) s t) (b : Byte) : Frame (.ldDtVx x) s (t.setDt b) :=
  { h with dt := fun hn => absurd rfl (hn x) }

theorem Frame.setSt {x : RegIdx} (h : Frame (.ldStVx x) s t) (b : Byte) : Frame (.ldStVx x) s (t.setSt b) :=
  { h with st := fun hn => absurd rfl (hn x) }

theorem Frame.of_writeReg {u : State} {x : RegIdx} {b : Byte} (hw : writeReg x b u = .next t) (h : Frame i s u)
    (hx : writesReg i x) : Frame i s t := by
  cases (writeReg_eq x b u).symm.trans hw
  exact (h.setReg hx b).setPc _

theorem Frame.of_writeRegFlag {x : RegIdx} {b : Byte} {f : BitVec 1} (hw : writeRegFlag x b f s = .next t)
    (hx : writesReg i x) (hvf : writesReg i vf) : Frame i s t := by
  cases (writeRegFlag_eq x b f s).symm.trans hw
  exact ((Frame.refl.setReg hx b).setReg hvf _).setPc _

theorem Frame.of_storeAtIndex {bytes : List Byte} (h : storeAtIndex bytes s = .next t)
    (hlen : storeLength i = bytes.length) : Frame i s t := by
  by_cases hl : rangeLegal s.i.toNat bytes.length
  · cases (storeAtIndex_eq_next hl).symm.trans h
    exact { Frame.refl (i := i) (s := s) with
      byte := fun a ha => Memory.read_writeList_outside s.mem s.i.toNat a bytes (hlen ▸ ha) }
  · cases (storeAtIndex_eq_fault hl).symm.trans h

theorem Frame.of_ldMemLoad {x : RegIdx} (h : exec (.ldMemLoad x) s = .next t) : Frame (.ldMemLoad x) s t := by
  obtain hgt | hle := Nat.lt_or_ge 0xFFF (s.i.toNat + x.toNat)
  · cases (exec_ldMemLoad_eq_fault hgt).symm.trans h
  · cases (exec_ldMemLoad_eq_next hle).symm.trans h
    have hreg (k : RegIdx) := reg_loadRegsFrom_readList x k s s.i.toNat
    rw [loadRegsFrom_frame] at hreg ⊢
    exact { Frame.refl (i := .ldMemLoad x) (s := s) with reg := fun k hk => (hreg k).trans (if_neg hk) }

/-- A completed instruction has one next state. -/
theorem of_exec_eq_next {p : State → Prop} {u : State} (h : exec i s = .next t) (hu : exec i s = .next u)
    (hp : p u) : p t := by
  cases hu.symm.trans h
  exact hp

end

theorem exec_frame {i : Instr} {s t : State} (h : exec i s = .next t) : Frame i s t := by
  cases i with
  | sys | jp | jpV0 | unknown => exact of_exec_eq_next h rfl (Frame.refl.setPc _)
  | seImm | sneImm | seReg | sneReg | skp | sknp => exact of_exec_eq_next h (skipIf_eq _ s) (Frame.refl.setPc _)
  | cls => exact of_exec_eq_next h rfl (Frame.refl.setFb (.inl rfl) _).advance
  | ret =>
    cases hstack : s.stack with
    | nil => cases (exec_ret_eq_fault hstack).symm.trans h
    | cons a rest =>
      exact of_exec_eq_next h (exec_ret_eq_next hstack) ((Frame.refl.setStack (.inl rfl) _).setPc _)
  | call nnn =>
    obtain hlt | hge := Nat.lt_or_ge s.stack.length s.stackCapacity
    · exact of_exec_eq_next h (exec_call_eq_next hlt) ((Frame.refl.setStack (.inr ⟨nnn, rfl⟩) _).setPc _)
    · cases (exec_call_eq_fault hge).symm.trans h
  | ldImm | addImm | mov | or | and | xor | ldVxDt => exact Frame.of_writeReg h Frame.refl rfl
  | addReg | sub | shr | subn | shl => exact Frame.of_writeRegFlag h (.inl rfl) (.inr rfl)
  | rnd x kk => exact Frame.of_writeReg h (Frame.refl.setRng _) rfl
  | ldI nnn => exact of_exec_eq_next h rfl (Frame.refl.setI (.inl ⟨nnn, rfl⟩) _).advance
  | addI x => exact of_exec_eq_next h rfl (Frame.refl.setI (.inr (.inl ⟨x, rfl⟩)) _).advance
  | ldF x => exact of_exec_eq_next h rfl (Frame.refl.setI (.inr (.inr ⟨x, rfl⟩)) _).advance
  | drw x y n =>
    by_cases hl : rangeLegal s.i.toNat n.toNat
    · exact of_exec_eq_next h (exec_drw_eq_next hl)
        (((Frame.refl.setFb (.inr ⟨x, y, n, rfl⟩) _).setReg rfl _).setPc _)
    · cases (exec_drw_eq_fault hl).symm.trans h
  | ldVxK x =>
    cases hkey : s.key with
    | none => exact of_exec_eq_next h (exec_ldVxK_of_no_key hkey) Frame.refl
    | some k => exact Frame.of_writeReg ((exec_ldVxK_eq_writeReg hkey).symm.trans h) Frame.refl rfl
  | ldDtVx x => exact of_exec_eq_next h rfl (Frame.refl.setDt _).advance
  | ldStVx x => exact of_exec_eq_next h rfl (Frame.refl.setSt _).advance
  | ldB x => exact Frame.of_storeAtIndex h rfl
  | ldMemStore x => exact Frame.of_storeAtIndex h (length_regsUpTo x s).symm
  | ldMemLoad x => exact Frame.of_ldMemLoad h

/-! ### The obligations -/

/-- Settles O19: the registers' part of the frame. -/
theorem registersChangeOnlyWhereListed : Obligations.RegistersChangeOnlyWhereListed := fun _ _ _ h =>
  (exec_frame h).reg

/-- Settles O20: the memory's part of the frame. -/
theorem memoryChangesOnlyInTheStoredRange : Obligations.MemoryChangesOnlyInTheStoredRange := fun _ _ _ h =>
  (exec_frame h).byte

/-- Settles O21: four parts of the frame, with the writers listed one by one. -/
theorem specialStateHasListedWritersOnly : Obligations.SpecialStateHasListedWritersOnly := by
  intro i s t h
  have hframe := exec_frame h
  refine ⟨fun hldI haddI hldF => hframe.index ?_, fun hret hcall => hframe.stack ?_,
    fun hcls hdrw => hframe.fb ?_, hframe.rng⟩
  · rintro (⟨nnn, e⟩ | ⟨x, e⟩ | ⟨x, e⟩)
    exacts [hldI nnn e, haddI x e, hldF x e]
  · rintro (e | ⟨nnn, e⟩)
    exacts [hret e, hcall nnn e]
  · rintro (e | ⟨x, y, n, e⟩)
    exacts [hcls e, hdrw x y n e]

/-- Settles O22: the frame of the instruction the tick executed. -/
theorem tickNeverWritesKeyNorCountsTimers : Obligations.TickNeverWritesKeyNorCountsTimers := by
  intro s i t h
  obtain ⟨-, -, hexec⟩ := tick_next h
  have hframe := exec_frame hexec
  exact ⟨hframe.key, hframe.params, hframe.dt, hframe.st⟩

end Sys2Proof.Machine

/-! PROOFS. The invariant of the machine: every step and every host call keeps it, and `create` establishes it (spec
10_state.md R18, R22; 60_exceptions.md R137 to R141). -/

namespace Sys2Proof.Machine

/-! ### The updates of the state that the invariant speaks of -/

theorem State.Inv.setPc {s : State} {w : Word} (hs : s.Inv) (hw : w.toNat ≤ 0x10FE) : (s.setPc w).Inv := by
  obtain ⟨hmem, hcap, hlen, haddr, -⟩ := hs
  exact ⟨hmem, hcap, hlen, haddr, hw⟩

/-- Neither addition to a pc from which a fetch is legal wraps (R74, R83). -/
theorem toNat_pc_add_of_fetchLegal {pc : Word} (hl : fetchLegal pc) :
    (pc + 2).toNat = pc.toNat + 2 ∧ (pc + 4).toNat = pc.toNat + 4 := by
  obtain ⟨hle, -⟩ := hl
  simp only [BitVec.toNat_add, BitVec.ofNat_eq_ofNat, BitVec.toNat_ofNat]
  omega

theorem State.Inv.advance {s : State} (hs : s.Inv) (hl : fetchLegal s.pc) : s.advance.Inv := by
  obtain ⟨htwo, -⟩ := toNat_pc_add_of_fetchLegal hl
  refine hs.setPc ?_
  rw [State.nextPc, htwo]
  exact Nat.le_trans (Nat.add_le_add_right hl.1 2) (by decide)

theorem State.Inv.skip {s : State} (hs : s.Inv) (hl : fetchLegal s.pc) (c : Bool) :
    (s.setPc (if c then s.pc + 4 else s.pc + 2)).Inv := by
  obtain ⟨htwo, hfour⟩ := toNat_pc_add_of_fetchLegal hl
  obtain ⟨hle, -⟩ := hl
  refine hs.setPc ?_
  split <;> omega

theorem State.Inv.push {s : State} (hs : s.Inv) (hl : fetchLegal s.pc) (hroom : s.stack.length < s.stackCapacity) :
    (s.setStack ((s.pc + 2) :: s.stack)).Inv := by
  obtain ⟨hmem, hcap, -, haddr, hpc⟩ := hs
  obtain ⟨htwo, -⟩ := toNat_pc_add_of_fetchLegal hl
  obtain ⟨hle, heven⟩ := hl
  exact ⟨hmem, hcap, hroom, List.forall_mem_cons.2 ⟨⟨by omega, by omega⟩, haddr⟩, hpc⟩

theorem State.Inv.pop {s : State} {a : Word} {rest : List Word} (hs : s.Inv) (hstack : s.stack = a :: rest) :
    ((s.setStack rest).setPc a).Inv := by
  obtain ⟨hmem, hcap, hlen, haddr, -⟩ := hs
  rw [hstack] at hlen haddr
  obtain ⟨⟨ha, -⟩, hrest⟩ := List.forall_mem_cons.1 haddr
  exact ⟨hmem, hcap, Nat.le_of_succ_le hlen, hrest, Nat.le_trans ha (by decide)⟩

theorem State.Inv.setMem {s : State} {m : Memory} (hs : s.Inv) (hm : Memory.wf m) : (s.setMem m).Inv := by
  obtain ⟨-, hcap, hlen, haddr, hpc⟩ := hs
  exact ⟨hm, hcap, hlen, haddr, hpc⟩

theorem State.Inv.of_storeAtIndex {bytes : List Byte} {s t : State} (hs : s.Inv) (hl : fetchLegal s.pc)
    (h : storeAtIndex bytes s = .next t) : t.Inv := by
  by_cases hrange : rangeLegal s.i.toNat bytes.length
  · cases (storeAtIndex_eq_next hrange).symm.trans h
    exact (hs.setMem (memWrite_keeps_wf hs.1 (memWrite_eq_writeList hrange))).advance hl
  · cases (storeAtIndex_eq_fault hrange).symm.trans h

theorem State.Inv.of_ldMemLoad {x : RegIdx} {s t : State} (hs : s.Inv) (hl : fetchLegal s.pc)
    (h : exec (.ldMemLoad x) s = .next t) : t.Inv := by
  obtain hgt | hle := Nat.lt_or_ge 0xFFF (s.i.toNat + x.toNat)
  · cases (exec_ldMemLoad_eq_fault hgt).symm.trans h
  · cases (exec_ldMemLoad_eq_next hle).symm.trans h
    rw [loadRegsFrom_frame]
    exact hs.advance hl

/-! ### Every instruction executed at a legal pc keeps it -/

theorem exec_keeps_inv {i : Instr} {s t : State} (hs : s.Inv) (hl : fetchLegal s.pc) (h : exec i s = .next t) :
    t.Inv := by
  cases i with
  | jp nnn =>
    refine of_exec_eq_next h (exec_jp nnn s) (hs.setPc ?_)
    rw [toNat_address]
    omega
  | jpV0 nnn =>
    refine of_exec_eq_next h (exec_jpV0 nnn s) (hs.setPc ?_)
    rw [toNat_addressPlusV0]
    omega
  | call nnn =>
    obtain hlt | hge := Nat.lt_or_ge s.stack.length s.stackCapacity
    · refine of_exec_eq_next h (exec_call_eq_next hlt) ((hs.push hl hlt).setPc ?_)
      rw [toNat_address]
      omega
    · cases (exec_call_eq_fault hge).symm.trans h
  | ret =>
    cases hstack : s.stack with
    | nil => cases (exec_ret_eq_fault hstack).symm.trans h
    | cons a rest => exact of_exec_eq_next h (exec_ret_eq_next hstack) (hs.pop hstack)
  | seImm | sneImm | seReg | sneReg | skp | sknp => exact of_exec_eq_next h (skipIf_eq _ s) (hs.skip hl _)
  | drw x y n =>
    by_cases hrange : rangeLegal s.i.toNat n.toNat
    · exact of_exec_eq_next h (exec_drw_eq_next hrange) (hs.advance hl)
    · cases (exec_drw_eq_fault hrange).symm.trans h
  | ldVxK x =>
    cases hkey : s.key with
    | none => exact of_exec_eq_next h (exec_ldVxK_of_no_key hkey) hs
    | some k => exact of_exec_eq_next h (exec_ldVxK_eq_writeReg hkey) (hs.advance hl)
  | ldB x => exact hs.of_storeAtIndex hl h
  | ldMemStore x => exact hs.of_storeAtIndex hl h
  | ldMemLoad x => exact hs.of_ldMemLoad hl h
  | sys | cls | ldImm | addImm | mov | or | and | xor | addReg | sub | shr | subn | shl | rnd | ldI | addI | ldF
  | ldVxDt | ldDtVx | ldStVx | unknown => exact of_exec_eq_next h rfl (hs.advance hl)

theorem tick_keeps_inv {i : Instr} {s t : State} (hs : s.Inv) (h : tick s = .next (i, t)) : t.Inv := by
  obtain ⟨hl, -, hexec⟩ := tick_next h
  exact exec_keeps_inv hs hl hexec

theorem tick_of_step_next {s t : State} (h : step s = .next t) : ∃ i, tick s = .next (i, t) := by
  obtain ⟨e, -, htick⟩ | ⟨-, i, u, htick⟩ := tick_cases s
  · cases (step_eq_fault_iff.2 htick).symm.trans h
  · cases (step_of_tick_next htick).symm.trans h
    exact ⟨i, htick⟩

/-! ### Every host call the model gives a step keeps it -/

/-- Everything a host call can be: one with a step, which keeps the invariant, or a refused key (R138). -/
theorem apply_cases (c : HostCall) (s : State) :
    (∃ t r, c.apply s = .ok (t, r) ∧ (s.Inv → t.Inv)) ∨
      ∃ n, c = .setKeyPressed (some n) ∧ 15 < n ∧ c.apply s = .error .keyOutOfRange := by
  cases c with
  | tick =>
    obtain ⟨e, -, htick⟩ | ⟨-, i, t, htick⟩ := tick_cases s
    · exact .inl ⟨s, _, apply_tick_of_fault htick, id⟩
    · exact .inl ⟨t, _, apply_tick_of_next htick, fun hs => tick_keeps_inv hs htick⟩
  | decrementTimers => exact .inl ⟨_, _, apply_decrementTimers s, id⟩
  | setKeyPressed k =>
    obtain ⟨key, hset⟩ | ⟨n, rfl, hgt, -⟩ := setKeyPressed_cases k s
    · exact .inl ⟨_, _, congrArg (HostStep.ofResult s) hset, id⟩
    · exact .inr ⟨n, rfl, hgt, apply_setKeyPressed_of_gt hgt s⟩

theorem runSchedule_keeps_inv {calls : List HostCall} {s : State} (hs : s.Inv)
    (hkeys : ∀ n, .setKeyPressed (some n) ∈ calls → n ≤ 15) : ∃ t, runSchedule calls s = .ok t ∧ t.Inv := by
  induction calls generalizing s with
  | nil => exact ⟨s, runSchedule_nil s, hs⟩
  | cons c cs ih =>
    obtain ⟨t, r, happly, ht⟩ | ⟨n, rfl, hgt, -⟩ := apply_cases c s
    · rw [runSchedule_cons_ok happly]
      exact ih (ht hs) fun n hn => hkeys n (List.mem_cons_of_mem c hn)
    · exact absurd (hkeys n List.mem_cons_self) hgt.not_ge

theorem create_inv {image : List Byte} {seed : Seed} {params : Params} {t : State}
    (hcap : 1 ≤ params.stackCapacity) (h : create image seed params = .next t) : t.Inv := by
  obtain ⟨hle, hcreate⟩ | ⟨-, hcreate⟩ := create_cases image seed params
  · cases hcreate.symm.trans h
    have hwf : Memory.wf (Memory.writeList [] 0x200 image) :=
      Memory.writeList_keeps_wf image State.reset_mem_wf (by unfold memSize; omega)
    exact ⟨hwf, hcap, Nat.zero_le _, fun _ ha => absurd ha List.not_mem_nil,
      (by decide : (0x200 : Word).toNat ≤ 0x10FE)⟩
  · cases hcreate.symm.trans h

/-! ### The obligations -/

/-- Settles O15: reset lists nothing in memory and on the stack, and its capacity is the default 16. -/
theorem resetMeetsTheInvariant : Obligations.ResetMeetsTheInvariant :=
  ⟨State.reset_mem_wf, by decide, Nat.zero_le _, fun _ ha => absurd ha List.not_mem_nil, by decide⟩

/-- Settles O16: a step that answers a state fetched at a legal pc and executed one instruction. -/
theorem everyStepKeepsTheInvariant : Obligations.EveryStepKeepsTheInvariant := by
  intro s t hs h
  obtain ⟨i, htick⟩ := tick_of_step_next h
  exact tick_keeps_inv hs htick

/-- Settles O17: by induction on the schedule; a call is refused only for a key above 15. -/
theorem hostCallsKeepTheInvariant : Obligations.HostCallsKeepTheInvariant :=
  ⟨fun _ _ => runSchedule_keeps_inv, fun _ _ _ _ => create_inv⟩

end Sys2Proof.Machine

/-! PROOFS. Canonical memories compare by what they read, and a placed word is fetched next (spec 20_memory.md R32,
R34; 40_decoder_and_tick.md R69). -/

namespace Sys2Proof.Machine

/-! ### The entries of a canonical memory -/

theorem Memory.read_of_mem {m : Memory} {a : Nat} {v : Byte} (hm : m.Pairwise (fun p q => p.1 < q.1))
    (h : (a, v) ∈ m) : Memory.read m a = v := by
  induction m with
  | nil => cases h
  | cons p rest ih =>
    obtain ⟨hlt, hrest⟩ := List.pairwise_cons.1 hm
    obtain rfl | hmem := List.mem_cons.1 h
    · exact if_pos rfl
    · exact (if_neg (hlt _ hmem).ne').trans (ih hrest hmem)

theorem Memory.mem_or_read_eq_unlisted (m : Memory) (a : Nat) :
    (a, Memory.read m a) ∈ m ∨ Memory.read m a = unlistedByte a := by
  induction m with
  | nil => exact .inr rfl
  | cons p rest ih =>
    obtain ⟨b, u⟩ := p
    rw [Memory.read]
    split
    · rename_i heq
      exact .inl (heq ▸ List.mem_cons_self)
    · exact ih.imp_left (List.mem_cons_of_mem _)

/-- An entry is an address of memory with a byte read there other than the unlisted one. -/
theorem Memory.mem_iff {m : Memory} (hm : Memory.wf m) {p : Host.Cell} :
    p ∈ m ↔ p.1 < memSize ∧ p.2 ≠ unlistedByte p.1 ∧ Memory.read m p.1 = p.2 := by
  obtain ⟨hpair, hentry⟩ := hm
  constructor
  · intro h
    obtain ⟨hlt, hne⟩ := hentry p h
    exact ⟨hlt, hne, Memory.read_of_mem hpair h⟩
  · rintro ⟨-, hne, hread⟩
    obtain hmem | hunlisted := Memory.mem_or_read_eq_unlisted m p.1
    · rwa [hread] at hmem
    · exact absurd (hread.symm.trans hunlisted) hne

/-- Settles O9: both have the same entries, and strictly rising addresses fix their order. -/
theorem canonicalMemoriesAreExtensional : Obligations.CanonicalMemoriesAreExtensional := by
  intro m m' hm hm' hread
  have hirrefl : Std.Irrefl fun p q : Host.Cell => p.1 < q.1 := ⟨fun p => Nat.lt_irrefl p.1⟩
  have hasymm : Std.Asymm fun p q : Host.Cell => p.1 < q.1 := ⟨fun _ _ => Nat.lt_asymm⟩
  refine List.Pairwise.eq_of_mem_iff hm.1 hm'.1 fun p => ?_
  rw [Memory.mem_iff hm, Memory.mem_iff hm']
  exact and_congr_right fun hlt => and_congr_right fun _ => by rw [hread p.1 hlt]

/-! ### The placing of a word -/

theorem fetchLegal_fetchAddress (s : State) : fetchLegal (fetchAddress s) := by
  unfold fetchAddress
  split
  · assumption
  · decide

theorem fetchedWord_placeWord {s : State} (hm : Memory.wf s.mem) (w : Word) : fetchedWord (placeWord s w) = w := by
  have hread (k : Nat) (b : Byte) (hb : [highByte w, lowByte w][k]? = some b) :
      (placeWord s w).byte ((fetchAddress s).toNat + k) = b := Memory.read_writeList_of_getElem? hm hb
  have hpc : (placeWord s w).pc = fetchAddress s := rfl
  have hhigh := hread 0 _ rfl
  have hlow := hread 1 _ rfl
  rw [Nat.add_zero] at hhigh
  rw [fetchedWord, hpc, hhigh, hlow, wordOfBytes_bytes]

theorem step_placeWord {s : State} (hm : Memory.wf s.mem) (w : Word) :
    step (placeWord s w) = exec (decode w) (placeWord s w) := by
  have hstep : step (placeWord s w) = exec (decode (fetchedWord (placeWord s w))) (placeWord s w) :=
    step_eq_exec_of_fetchLegal (fetchLegal_fetchAddress s)
  rwa [fetchedWord_placeWord hm] at hstep

theorem withFetchWord_16 (s : State) (w : Nat) : s.withFetchWord 16 w = placeWord s (BitVec.ofNat 16 w) := by
  have hword : tableWord 16 w = BitVec.ofNat 16 w := BitVec.eq_of_toNat_eq (by simp [tableWord])
  rw [State.withFetchWord, hword]

/-- Settles O13: the placed word is fetched, since a fetch at its address is legal and reads its two bytes. -/
theorem placedWordRunsNext : Obligations.PlacedWordRunsNext := by
  intro s w hm _
  rw [withFetchWord_16]
  exact ⟨step_placeWord hm _, rfl, fun hl => if_pos hl⟩

end Sys2Proof.Machine

/-! PROOFS. What is read after a store at I: by a bulk load, and by any fetch or data read (spec 43_index_memory.md
R109, R110; 20_memory.md R47). -/

namespace Sys2Proof.Machine

theorem ldMemStore_range_of_next {x : RegIdx} {s t : State} (h : exec (.ldMemStore x) s = .next t) :
    s.i.toNat + x.toNat ≤ 0xFFF := by
  by_contra hgt
  cases ((ldMemStoreStoresV0ToVx x s).2 (by omega)).symm.trans h

/-- Settles O46: the load answers the bytes at I, which the store left as V0 to Vx. -/
theorem bulkLoadUndoesBulkStore : Obligations.BulkLoadUndoesBulkStore := by
  intro x s t u v' hm hstore hload
  have hrange := ldMemStore_range_of_next hstore
  obtain ⟨t', ht', hframe, hstored, -⟩ := (ldMemStoreStoresV0ToVx x s).1 hm hrange
  cases ht'.symm.trans hstore
  have hi : t.i = s.i := by rw [hframe]
  obtain ⟨u', hu', hframe', hloaded, -⟩ := (ldMemLoadLoadsV0ToVx x { t with v := v' }).1 (hi ▸ hrange)
  cases hu'.symm.trans hload
  refine ⟨?_, ?_, fun k hk => ?_⟩
  · rw [hframe', hi]
  · rw [hframe']
  · rw [hloaded k hk, ← hstored k hk, ← hi]
    rfl

/-- Every address after a completed store at I, inside the store and outside it. -/
theorem byte_of_storeAtIndex_eq_next {bytes : List Byte} {s t : State} (hm : Memory.wf s.mem)
    (h : storeAtIndex bytes s = .next t) (a : Nat) : t.byte a = byteAfterStore s bytes a := by
  by_cases hrange : rangeLegal s.i.toNat bytes.length
  · cases (storeAtIndex_eq_next hrange).symm.trans h
    have hout (ha : a < s.i.toNat ∨ s.i.toNat + bytes.length ≤ a) :
        Memory.read (Memory.writeList s.mem s.i.toNat bytes) a = s.byte a :=
      Memory.read_writeList_outside s.mem s.i.toNat a bytes ha
    rw [State.byte_setPc, State.byte_setMem, byteAfterStore, indexBase]
    split
    · cases hk : bytes[a - s.i.toNat]? with
      | none => exact hout (.inr (by have := List.getElem?_eq_none_iff.1 hk; omega))
      | some b =>
        have hread := Memory.read_writeList_of_getElem? (a := s.i.toNat) hm hk
        rwa [Nat.add_sub_cancel' ‹_›] at hread
    · exact hout (.inl (by omega))
  · cases (storeAtIndex_eq_fault hrange).symm.trans h

/-- Settles O47: both instructions are a store at I, and a fetch or a data read answers the bytes of memory. -/
theorem nextFetchSeesTheStore : Obligations.NextFetchSeesTheStore := by
  intro x bytes s t u hm hstore hu
  have hnext : storeAtIndex bytes s = .next t := by
    obtain ⟨h, rfl⟩ | ⟨h, rfl⟩ := hstore <;> exact h
  have hbyte (a : Nat) : u.byte a = byteAfterStore s bytes a := by
    rw [State.byte, hu]
    exact byte_of_storeAtIndex_eq_next hm hnext a
  refine ⟨fun hl => ?_, fun a n h => ?_⟩
  · have hstep := step_eq_exec_of_fetchLegal hl
    rwa [hbyte, hbyte] at hstep
  · rw [memRead_eq_readList (rangeLegal_of_le h), Memory.readList]
    exact congrArg Except.ok (List.map_congr_left fun k _ => hbyte (a + k))

end Sys2Proof.Machine

/-! PROOFS. The created machine and the host's two writes (spec 70_reset_and_hazards.md R146; 60_exceptions.md R137,
R138). -/

namespace Sys2Proof.Machine

/-! ### The memory of a created machine -/

theorem read_writeList_nil_of_getElem? {image : List Byte} {k : Nat} {b : Byte} (h : image[k]? = some b) :
    Memory.read (Memory.writeList [] 0x200 image) (0x200 + k) = b :=
  Memory.read_writeList_of_getElem? State.reset_mem_wf h

/-- Outside the image an address reads as unlisted. -/
theorem read_writeList_nil_outside {image : List Byte} {a : Nat} (h : a < 0x200 ∨ 0x200 + image.length ≤ a) :
    Memory.read (Memory.writeList [] 0x200 image) a = unlistedByte a :=
  Memory.read_writeList_outside [] 0x200 a image h

theorem unlistedByte_reserved (a : Fin 512) : unlistedByte a.val = Config.reservedImage a := dif_pos a.isLt

theorem unlistedByte_of_ge {a : Nat} (h : 0x200 ≤ a) : unlistedByte a = 0 := dif_neg (by omega)

/-- Settles O59: `create_cases`, with memory read in its three ranges. -/
theorem createLoadsTheImage : Obligations.CreateLoadsTheImage := by
  intro image seed params
  obtain ⟨hle, hcreate⟩ | ⟨hgt, hcreate⟩ := create_cases image seed params
  · refine ⟨fun _ => ⟨_, hcreate, rfl, rfl, rfl, fun k => ?_, rfl, rfl, rfl, rfl, rfl, fbByte_clearFb,
      fun _ _ => read_writeList_nil_of_getElem?, fun a ha => ?_, fun a => ?_⟩, fun h => absurd hle h.not_ge⟩
    · exact Vector.getElem_replicate _
    · exact (read_writeList_nil_outside (.inr ha)).trans (unlistedByte_of_ge (by omega))
    · exact (read_writeList_nil_outside (.inl a.isLt)).trans (unlistedByte_reserved a)
  · exact ⟨fun h => absurd h hgt.not_ge, fun _ => hcreate⟩

/-- Settles O58: `create` of no bytes writes nothing to memory, and `clearFb` is the zero framebuffer of reset. -/
theorem resetIsCreateOfTheEmptyImage : Obligations.ResetIsCreateOfTheEmptyImage :=
  ⟨if_pos (Nat.zero_le _), fun _ => Vector.getElem_replicate _, rfl, rfl, rfl, rfl, rfl, fbByte_clearFb, rfl⟩

/-! ### The timers and the key -/

theorem toNat_countDown (b : Byte) : (countDown b).toNat = b.toNat - 1 := by
  unfold countDown
  split
  · exact BitVec.toNat_sub_of_le (x := b) (y := 1) (BitVec.le_def.2 ‹b.toNat > 0›)
  · omega

theorem runSchedule_of_refused_key {n : Nat} (hn : 15 < n) {calls : List HostCall}
    (hmem : .setKeyPressed (some n) ∈ calls) (s : State) : runSchedule calls s = .error .keyOutOfRange := by
  induction calls generalizing s with
  | nil => cases hmem
  | cons c cs ih =>
    obtain rfl | hrest := List.mem_cons.1 hmem
    · exact runSchedule_cons_error (apply_setKeyPressed_of_gt hn s) cs
    · obtain ⟨t, r, hok, -⟩ | ⟨-, -, -, herr⟩ := apply_cases c s
      · rw [runSchedule_cons_ok hok, ih hrest]
      · exact runSchedule_cons_error herr cs

/-- Settles O60: both writes set fields of their own; a schedule stops at its first refused call. -/
theorem hostWritesOnlyTimersAndKey : Obligations.HostWritesOnlyTimersAndKey := by
  refine fun s => ⟨rfl, toNat_countDown s.dt, toNat_countDown s.st, rfl, fun n hn => ?_, fun n hn => ?_⟩
  · exact ⟨BitVec.ofNat 4 n, (BitVec.toNat_ofNat n 4).trans (Nat.mod_eq_of_lt (by omega)), if_pos hn⟩
  · exact ⟨if_neg (by omega), apply_setKeyPressed_of_gt hn s, fun _ hmem => runSchedule_of_refused_key hn hmem s⟩

end Sys2Proof.Machine

/-! PROOFS. The compositor, pixel by pixel (spec 44_display.md R112 to R118). -/

namespace Sys2Proof.Machine

/-! ### The pixels under a sprite byte -/

/-- Whether the sprite byte at column `xo` has a 1 bit over column `c` (R113). -/
def coversColumn (xo : Fin 64) (sprite : Byte) (c : Fin 64) : Bool := sprite.getMsbD (c - xo).val

theorem coversColumn_iff {xo c : Fin 64} {sprite : Byte} : coversColumn xo sprite c = true ↔
    ∃ k, k < 8 ∧ c.val = (xo.val + k) % 64 ∧ sprite.getLsbD (7 - k) = true := by
  simp only [coversColumn, BitVec.getMsbD, Bool.and_eq_true, decide_eq_true_eq]
  constructor
  · rintro ⟨hk, hbit⟩
    exact ⟨(c - xo).val, hk, by rw [Fin.val_sub]; omega, hbit⟩
  · rintro ⟨k, hk, hc, hbit⟩
    have he : (c - xo).val = k := by rw [Fin.val_sub]; omega
    rw [he]
    exact ⟨hk, hbit⟩

/-- The byte of a row that holds column `c` (R112). -/
def columnByte (c : Fin 64) : Fin 8 := ⟨c.val / 8, by omega⟩

/-- The bit of its byte that column `c` is (R112). -/
def columnBit (c : Fin 64) : Nat := 7 - c.val % 8

theorem pixel_eq (fb : Framebuffer) (c : Fin 64) (r : Fin 32) :
    pixel fb c r = (fbByte fb r (columnByte c)).getLsbD (columnBit c) := rfl

theorem val_blitByte_add_one (xo : Fin 64) : (blitByte xo + 1).val = (xo.val / 8 + 1) % 8 := Fin.val_add _ _

/-- In the first byte of a blit the sprite is shifted right, and columns left of `xo` get none of its bits. -/
theorem coversColumn_eq_blitHi {xo c : Fin 64} (sprite : Byte) (h : columnByte c = blitByte xo) :
    coversColumn xo sprite c = (blitHi xo sprite).getLsbD (columnBit c) := by
  have hbyte : c.val / 8 = xo.val / 8 := Fin.val_eq_of_eq h
  have hdist : (c - xo).val = (64 - xo.val + c.val) % 64 := Fin.val_sub c xo
  rw [coversColumn, BitVec.getMsbD, blitHi, BitVec.getLsbD_ushiftRight, columnBit]
  by_cases hle : xo.val ≤ c.val
  · have hbit : 8 - 1 - (c - xo).val = xo.val % 8 + (7 - c.val % 8) := by omega
    rw [decide_eq_true (by omega), Bool.true_and, hbit]
  · rw [decide_eq_false (by omega), Bool.false_and, BitVec.getLsbD_of_ge _ _ (by omega)]

/-- In the second byte it is shifted left, and holds the bits that the first had no room for. -/
theorem coversColumn_eq_blitLo {xo c : Fin 64} (sprite : Byte) (h : columnByte c = blitByte xo + 1) :
    coversColumn xo sprite c = (blitLo xo sprite).getLsbD (columnBit c) := by
  have hbyte : c.val / 8 = (xo.val / 8 + 1) % 8 := (Fin.val_eq_of_eq h).trans (val_blitByte_add_one xo)
  have hdist : (c - xo).val = (64 - xo.val + c.val) % 64 := Fin.val_sub c xo
  rw [coversColumn, BitVec.getMsbD, blitLo, BitVec.getLsbD_shiftLeft, columnBit]
  by_cases hlt : c.val % 8 < xo.val % 8
  · have hbit : 8 - 1 - (c - xo).val = 7 - c.val % 8 - (8 - xo.val % 8) := by omega
    rw [decide_eq_true (by omega), decide_eq_true (by omega), decide_eq_false (by omega), hbit]
    rfl
  · rw [decide_eq_false (by omega), decide_eq_true (p := 7 - c.val % 8 < 8 - xo.val % 8) (by omega)]
    simp

theorem coversColumn_eq_false {xo c : Fin 64} (sprite : Byte) (h0 : columnByte c ≠ blitByte xo)
    (h1 : columnByte c ≠ blitByte xo + 1) : coversColumn xo sprite c = false := by
  have hbyte0 : c.val / 8 ≠ xo.val / 8 := fun e => h0 (Fin.ext e)
  have hbyte1 : c.val / 8 ≠ (xo.val / 8 + 1) % 8 := fun e =>
    h1 (Fin.ext (e.trans (val_blitByte_add_one xo).symm))
  have hdist : (c - xo).val = (64 - xo.val + c.val) % 64 := Fin.val_sub c xo
  rw [coversColumn, BitVec.getMsbD, decide_eq_false (by omega), Bool.false_and]

/-! ### Blit -/

/-- A blit toggles exactly the pixels of its row under the sprite byte (R115). -/
theorem pixel_blit (fb : Framebuffer) (row r : Fin 32) (xo c : Fin 64) (sprite : Byte) :
    pixel (blit fb row xo sprite).1 c r = (pixel fb c r ^^ (decide (r = row) && coversColumn xo sprite c)) := by
  rw [pixel_eq, pixel_eq, fbByte_blit]
  by_cases hr : r = row
  · rw [decide_eq_true hr, Bool.true_and]
    by_cases h0 : columnByte c = blitByte xo
    · rw [if_pos ⟨hr, h0⟩, BitVec.getLsbD_xor, coversColumn_eq_blitHi sprite h0]
    · rw [if_neg fun h => h0 h.2]
      by_cases h1 : columnByte c = blitByte xo + 1
      · rw [if_pos ⟨hr, h1⟩, BitVec.getLsbD_xor, coversColumn_eq_blitLo sprite h1]
      · rw [if_neg fun h => h1 h.2, coversColumn_eq_false sprite h0 h1, Bool.xor_false]
  · rw [if_neg fun h => hr h.1, if_neg fun h => hr h.1, decide_eq_false hr, Bool.false_and, Bool.xor_false]

/-- Bit `k` of byte `b` of a row is a column of it. -/
theorem exists_column (b : Fin 8) {k : Nat} (hk : k < 8) : ∃ c : Fin 64, columnByte c = b ∧ columnBit c = k := by
  refine ⟨⟨b.val * 8 + (7 - k), by omega⟩, Fin.ext ?_, ?_⟩
  · show (b.val * 8 + (7 - k)) / 8 = b.val
    omega
  · show 7 - (b.val * 8 + (7 - k)) % 8 = k
    omega

theorem ne_zero_iff_exists_bit {u : Byte} : u ≠ 0 ↔ ∃ k, k < 8 ∧ u.getLsbD k = true := by
  have hzero (k : Nat) : (0 : Byte).getLsbD k = false := BitVec.getLsbD_zero
  constructor
  · intro hne
    by_contra hnone
    refine hne (BitVec.eq_of_getLsbD_eq fun k hk => ?_)
    rw [hzero, Bool.eq_false_iff]
    exact fun hbit => hnone ⟨k, hk, hbit⟩
  · rintro ⟨k, -, hbit⟩ rfl
    exact Bool.false_ne_true ((hzero k).symm.trans hbit)

/-- Two bytes of a row have a 1 bit in common exactly when they have one at some column. -/
theorem and_bne_zero_iff {u v : Byte} (b : Fin 8) : (u &&& v != 0) = true ↔
    ∃ c, columnByte c = b ∧ u.getLsbD (columnBit c) = true ∧ v.getLsbD (columnBit c) = true := by
  simp only [bne_iff_ne, ne_zero_iff_exists_bit, BitVec.getLsbD_and, Bool.and_eq_true]
  constructor
  · rintro ⟨k, hk, hbits⟩
    obtain ⟨c, hbyte, rfl⟩ := exists_column b hk
    exact ⟨c, hbyte, hbits⟩
  · rintro ⟨c, -, hbits⟩
    exact ⟨columnBit c, by unfold columnBit; omega, hbits⟩

/-- A blit collides exactly when it turns a set pixel off (R116). -/
theorem blit_hit_iff {fb : Framebuffer} {row : Fin 32} {xo : Fin 64} {sprite : Byte} :
    (blit fb row xo sprite).2 = true ↔ ∃ c, coversColumn xo sprite c = true ∧ pixel fb c row = true := by
  simp only [blit, Bool.or_eq_true]
  rw [and_bne_zero_iff (blitByte xo), and_bne_zero_iff (blitByte xo + 1)]
  constructor
  · rintro (⟨c, hbyte, hold, hnew⟩ | ⟨c, hbyte, hold, hnew⟩)
    · exact ⟨c, (coversColumn_eq_blitHi sprite hbyte).trans hnew, by rwa [pixel_eq, hbyte]⟩
    · exact ⟨c, (coversColumn_eq_blitLo sprite hbyte).trans hnew, by rwa [pixel_eq, hbyte]⟩
  · rintro ⟨c, hcovers, hpixel⟩
    rw [pixel_eq] at hpixel
    by_cases h0 : columnByte c = blitByte xo
    · rw [coversColumn_eq_blitHi sprite h0] at hcovers
      exact .inl ⟨c, h0, h0 ▸ hpixel, hcovers⟩
    · by_cases h1 : columnByte c = blitByte xo + 1
      · rw [coversColumn_eq_blitLo sprite h1] at hcovers
        exact .inr ⟨c, h1, h1 ▸ hpixel, hcovers⟩
      · cases (coversColumn_eq_false sprite h0 h1).symm.trans hcovers

/-- An exclusive or, in the form in which the statements say that a pixel toggles. -/
theorem xor_eq_true_iff {p q : Bool} {P : Prop} (hq : q = true ↔ P) : (p ^^ q) = true ↔ ¬ (p = true ↔ P) := by
  rw [← hq]
  cases p <;> cases q <;> decide

/-- Settles O50: `pixel_blit` and `blit_hit_iff`, with the covered columns spelled out. -/
theorem blitIsPixelByPixel : Obligations.BlitIsPixelByPixel := by
  intro fb row xo sprite
  refine ⟨fun c r => ?_, ?_⟩
  · rw [pixel_blit]
    refine xor_eq_true_iff ?_
    rw [Bool.and_eq_true, decide_eq_true_eq, coversColumn_iff]
  · simp only [blit_hit_iff, coversColumn_iff]
    constructor
    · rintro ⟨c, ⟨k, hk, hc, hbit⟩, hpixel⟩
      exact ⟨c, k, hk, hc, hbit, hpixel⟩
    · rintro ⟨c, k, hk, hc, hbit, hpixel⟩
      exact ⟨c, ⟨k, hk, hc, hbit⟩, hpixel⟩

/-! ### Draw -/

/-- Whether a draw of `sprite` from row `row` and column `xo` on has a 1 bit over a pixel: the sprite byte of the
pixel's row, if there is one, covers its column (R118). -/
def coversPixel (row : Fin 32) (xo : Fin 64) (sprite : List Byte) (c : Fin 64) (r : Fin 32) : Bool :=
  sprite[(r - row).val]?.any (coversColumn xo · c)

section

variable {row r : Fin 32} {xo c : Fin 64} {b : Byte} {bs : List Byte}

theorem coversPixel_cons_self : coversPixel row xo (b :: bs) c row = coversColumn xo b c := by
  rw [coversPixel, sub_self]
  rfl

theorem coversPixel_cons_of_ne (h : r ≠ row) :
    coversPixel row xo (b :: bs) c r = coversPixel (row + 1) xo bs c r := by
  have hsucc : (r - row).val = (r - (row + 1)).val + 1 := by
    have hne : r.val ≠ row.val := fun e => h (Fin.ext e)
    rw [Fin.val_sub, Fin.val_sub, Fin.val_add]
    show (32 - row.val + r.val) % 32 = (32 - (row.val + 1) % 32 + r.val) % 32 + 1
    omega
  rw [coversPixel, coversPixel, hsucc, List.getElem?_cons_succ]

/-- The rows below the first of a draw do not come round to it. -/
theorem coversPixel_add_one_eq_false (h : bs.length < 32) : coversPixel (row + 1) xo bs c row = false := by
  have hlast : (row - (row + 1)).val = 31 := by
    rw [Fin.val_sub, Fin.val_add]
    show (32 - (row.val + 1) % 32 + row.val) % 32 = 31
    omega
  rw [coversPixel, hlast, List.getElem?_eq_none (by omega)]
  rfl

/-- The pixels of a draw are those of its first row and those of the rest, which are never the same. -/
theorem coversPixel_cons (h : bs.length < 32) : coversPixel row xo (b :: bs) c r =
    ((decide (r = row) && coversColumn xo b c) ^^ coversPixel (row + 1) xo bs c r) := by
  by_cases hr : r = row
  · subst hr
    rw [coversPixel_cons_self, coversPixel_add_one_eq_false h, decide_eq_true rfl, Bool.true_and, Bool.xor_false]
  · rw [coversPixel_cons_of_ne hr, decide_eq_false hr, Bool.false_and, Bool.false_xor]

end

/-- A draw of at most as many rows as there are toggles exactly the pixels it covers. -/
theorem pixel_drawRows {sprite : List Byte} (hlen : sprite.length ≤ 32) (fb : Framebuffer) (row r : Fin 32)
    (xo c : Fin 64) :
    pixel (drawRows fb row xo sprite).1 c r = (pixel fb c r ^^ coversPixel row xo sprite c r) := by
  induction sprite generalizing fb row with
  | nil => exact (Bool.xor_false _).symm
  | cons b bs ih =>
    have hlt : bs.length < 32 := hlen
    calc pixel (drawRows (blit fb row xo b).1 (row + 1) xo bs).1 c r
        = (pixel (blit fb row xo b).1 c r ^^ coversPixel (row + 1) xo bs c r) := ih hlt.le _ _
      _ = ((pixel fb c r ^^ (decide (r = row) && coversColumn xo b c)) ^^ coversPixel (row + 1) xo bs c r) := by
        rw [pixel_blit]
      _ = (pixel fb c r ^^ coversPixel row xo (b :: bs) c r) := by rw [coversPixel_cons hlt, Bool.xor_assoc]

/-- It collides exactly when one of them was set: no row of it is drawn over another. -/
theorem drawRows_hit_iff {sprite : List Byte} (hlen : sprite.length ≤ 32) {fb : Framebuffer} {row : Fin 32}
    {xo : Fin 64} : (drawRows fb row xo sprite).2 = true ↔
      ∃ c r, pixel fb c r = true ∧ coversPixel row xo sprite c r = true := by
  induction sprite generalizing fb row with
  | nil => simp [drawRows, coversPixel]
  | cons b bs ih =>
    have hlt : bs.length < 32 := hlen
    have hor : (drawRows fb row xo (b :: bs)).2 =
      ((blit fb row xo b).2 || (drawRows (blit fb row xo b).1 (row + 1) xo bs).2) := rfl
    rw [hor, Bool.or_eq_true, blit_hit_iff, ih hlt.le]
    have hrest {c : Fin 64} {r : Fin 32} (hr : r ≠ row) : pixel (blit fb row xo b).1 c r = pixel fb c r := by
      rw [pixel_blit, decide_eq_false hr, Bool.false_and, Bool.xor_false]
    constructor
    · rintro (⟨c, hcovers, hpixel⟩ | ⟨c, r, hpixel, hcovers⟩)
      · exact ⟨c, row, hpixel, coversPixel_cons_self.trans hcovers⟩
      · have hr : r ≠ row := by
          rintro rfl
          cases (coversPixel_add_one_eq_false hlt).symm.trans hcovers
        exact ⟨c, r, hrest hr ▸ hpixel, (coversPixel_cons_of_ne hr).trans hcovers⟩
    · rintro ⟨c, r, hpixel, hcovers⟩
      by_cases hr : r = row
      · subst hr
        exact .inl ⟨c, coversPixel_cons_self.symm.trans hcovers, hpixel⟩
      · exact .inr ⟨c, r, (hrest hr).trans hpixel, (coversPixel_cons_of_ne hr).symm.trans hcovers⟩

/-- The pixels that a draw covers are the sprite's pixels of the spec. -/
theorem coversPixel_iff_spritePixel {vx vy : Byte} {sprite : List Byte} (hlen : sprite.length ≤ 32) {c : Fin 64}
    {r : Fin 32} : coversPixel (drawRow vy) (drawColumn vx) sprite c r = true ↔ spritePixel vx vy sprite c r := by
  have hdist : (r - drawRow vy).val = (32 - vy.toNat % 32 + r.val) % 32 := Fin.val_sub r (drawRow vy)
  have hxo : (drawColumn vx).val = vx.toNat % 64 := rfl
  simp only [coversPixel, Option.any_eq_true, coversColumn_iff, hdist, hxo]
  constructor
  · rintro ⟨b, hb, k, hk, hc, hbit⟩
    exact ⟨_, k, hk, ⟨by omega, by omega⟩, b, hb, hbit⟩
  · rintro ⟨j, k, hk, ⟨hr, hc⟩, b, hb, hbit⟩
    obtain ⟨hj, -⟩ := List.getElem?_eq_some_iff.1 hb
    have hrow : (32 - vy.toNat % 32 + r.val) % 32 = j := by omega
    exact ⟨b, hrow ▸ hb, k, hk, by omega, hbit⟩

section

variable {vx vy : Byte} {sprite : List Byte} (hlen : sprite.length ≤ 15)

include hlen

/-- A draw toggles the pixels it covers. -/
theorem pixel_draw (fb : Framebuffer) (c : Fin 64) (r : Fin 32) : pixel (draw fb vx vy sprite).1 c r =
    (pixel fb c r ^^ coversPixel (drawRow vy) (drawColumn vx) sprite c r) :=
  pixel_drawRows (by omega) fb _ r _ c

theorem draw_hit_iff {fb : Framebuffer} : (draw fb vx vy sprite).2 = true ↔
    ∃ c r, pixel fb c r = true ∧ coversPixel (drawRow vy) (drawColumn vx) sprite c r = true :=
  drawRows_hit_iff (by omega)

/-- A byte with a 1 bit covers a pixel, wherever the sprite is drawn. -/
theorem exists_coversPixel {b : Byte} (hb : b ∈ sprite) (hne : b ≠ 0) :
    ∃ c r, coversPixel (drawRow vy) (drawColumn vx) sprite c r = true := by
  obtain ⟨j, hj⟩ := List.getElem?_of_mem hb
  obtain ⟨k, hk, hbit⟩ := ne_zero_iff_exists_bit.1 hne
  refine ⟨⟨(vx.toNat + (7 - k)) % 64, by omega⟩, ⟨(vy.toNat + j) % 32, by omega⟩,
    (coversPixel_iff_spritePixel (by omega)).2 ⟨j, 7 - k, by omega, ⟨rfl, rfl⟩, b, hj, ?_⟩⟩
  rwa [show 7 - (7 - k) = k by omega]

end

/-- Two framebuffers with the same pixels are the same. -/
theorem fb_ext_pixel {f g : Framebuffer} (h : ∀ c r, pixel f c r = pixel g c r) : f = g := by
  refine fb_ext fun r b => BitVec.eq_of_getLsbD_eq fun k hk => ?_
  obtain ⟨c, rfl, rfl⟩ := exists_column b hk
  exact h c r

/-- Settles O51: `pixel_draw` and `draw_hit_iff`, with the covered pixels as the sprite's pixels. -/
theorem drawTogglesTheSpritePixels : Obligations.DrawTogglesTheSpritePixels := by
  intro fb vx vy sprite hlen
  have hcovers {c : Fin 64} {r : Fin 32} := coversPixel_iff_spritePixel (vx := vx) (vy := vy) (c := c) (r := r)
    (show sprite.length ≤ 32 by omega)
  refine ⟨fun c r => ?_, ?_⟩
  · rw [pixel_draw hlen]
    exact xor_eq_true_iff hcovers
  · simp only [draw_hit_iff hlen, hcovers]

/-- Settles O52: each pixel is toggled twice or not at all; a covered pixel that was clear before the first draw is
set before the second. -/
theorem drawingTwiceRestoresTheFramebuffer : Obligations.DrawingTwiceRestoresTheFramebuffer := by
  intro fb vx vy sprite hlen
  refine ⟨fb_ext_pixel fun c r => ?_, fun hmiss ⟨b, hb, hne⟩ => ?_⟩
  · rw [pixel_draw hlen, pixel_draw hlen, Bool.xor_assoc, Bool.xor_self, Bool.xor_false]
  · obtain ⟨c, r, hcovers⟩ := exists_coversPixel (vx := vx) (vy := vy) hlen hb hne
    have hclear : pixel fb c r = false := Bool.eq_false_iff.2 fun hpixel =>
      Bool.false_ne_true (hmiss.symm.trans ((draw_hit_iff hlen).2 ⟨c, r, hpixel, hcovers⟩))
    refine (draw_hit_iff hlen).2 ⟨c, r, ?_, hcovers⟩
    rw [pixel_draw hlen, hclear, hcovers]
    rfl

/-- The first draw of the worked straddle (R118, section 4): the bytes of the rows it reaches and of the others. -/
theorem draw_worked_straddle : (draw clearFb 7 0 [0x81, 0x81, 0xFF, 0x81, 0x81]).2 = false ∧
    ∀ r b, fbByte (draw clearFb 7 0 [0x81, 0x81, 0xFF, 0x81, 0x81]).1 r b =
      if r.val < 5 then
        if b.val = 0 then 0x01 else if b.val = 1 then (if r.val = 2 then 0xFE else 0x02) else 0
      else 0 := by
  decide

/-- Settles O53: the first draw evaluated; the second restores the clear screen and collides, as drawing twice
does. -/
theorem workedStraddleGivesItsBytes : Obligations.WorkedStraddleGivesItsBytes := by
  obtain ⟨hmiss, hbytes⟩ := draw_worked_straddle
  obtain ⟨hrestored, hhit⟩ :=
    drawingTwiceRestoresTheFramebuffer clearFb 7 0 [0x81, 0x81, 0xFF, 0x81, 0x81] (by decide)
  refine ⟨hmiss, hbytes, hhit hmiss ⟨0x81, by decide, by decide⟩, fun r b => ?_⟩
  rw [hrestored, fbByte_clearFb]

end Sys2Proof.Machine
